-- ==== Sys2Proof/Word.lean ====
section
/-! DEFINITION. The word types of the engine: bytes, 32-bit words, byte arrays indexed from 0 (R8, R9). -/

namespace Sys2Proof

/-- An 8-bit unsigned value (R9). -/
abbrev Byte := BitVec 8

/-- A 32-bit word of the command port (R70, R78). -/
abbrev Word := BitVec 32

/-- A byte array `A[0..n-1]`, in index order (R9). -/
abbrev Bytes (n : Nat) := Vector Byte n

/-- `BLOCK_BYTES` = `CTR_BYTES` = 16 bytes: one cipher block, the counter, the buffer (R6). -/
abbrev Block := Bytes 16

end Sys2Proof
end

