-- ==== Sys2Proof/Config.lean ====
section
/-! DEFINITION. What the spec leaves to the configuration or to the environment: the block cipher `E` (R7), and the
inputs of a step that no law constrains (R12, R190, R201, R203). -/

namespace Sys2Proof

/-- A block cipher as R6 names it: `E(len, key[0..len-1], block[0..15]) -> ct[0..15]`. -/
abbrev Cipher := Nat → List Byte → Block → Block

/-- The environment inputs of one command (R12): `kinit_ok` and `enc_ok`. -/
structure Env where
  kinitOk : Bool
  encOk : Bool
  deriving DecidableEq, Repr

/-- Everything the outside decides for one step: whether the hardware reset arrives before it (R190), which host the
arbiter prefers (R201), and the two draws of the command executed (R203). -/
structure StepInput where
  hardReset : Bool
  grant : Nat
  env : Env
  deriving DecidableEq, Repr

/-- The block cipher `E` the engine is attached to: "a total function", OPEN (R6, R7, D17). Log entry 3. -/
opaque Config.cipher : Cipher

/-- Free input: whether the hardware reset arrives before step number `n` (R190). Log entry 2. -/
opaque Config.freeHardReset : Nat → Bool

/-- Free input: the host the arbiter prefers in step number `n` (R201). Log entry 2. -/
opaque Config.freeGrant : Nat → Nat

/-- Free input: `kinit_ok` of step number `n` (R61, U2). Log entry 2. -/
opaque Config.freeKinitOk : Nat → Bool

/-- Free input: `enc_ok` of step number `n` (R62, U3). Log entry 2. -/
opaque Config.freeEncOk : Nat → Bool

end Sys2Proof
end

