-- ==== Sys2Proof/Syntax.lean ====
section
/-! DEFINITION. The commands of the engine (R75, R82), the words a host sends (R70), the outcome of decoding (R82) and
the lines of a listing (R80, R81). -/

namespace Sys2Proof

/-- The eight commands, one constructor per row of the opcode map (R75). An operand has the width of its field, so every
value of the type is one its encoding admits (R71 to R74). The data of `SEEDW` is the operand word `wdata` of the
request, not a field of the command word (R70, R82). -/
inductive Instr where
  /-- `RST`, format N (R90). -/
  | rst
  /-- `SEEDW k`, format X3, `k = idx3` (R91). -/
  | seedw (k : BitVec 3)
  /-- `INIT n`, format V6, `n = val6` bytes (R92). -/
  | init (n : BitVec 6)
  /-- `NEXTBITS w`, format V6, `w = val6` bits (R110). -/
  | nextbits (w : BitVec 6)
  /-- `SEEDR k`, format X3, `k = idx3` (R140). -/
  | seedr (k : BitVec 3)
  /-- `STAT`, format N (R141). -/
  | stat
  /-- `CTRR k`, format X2, `k = idx2` (R142). -/
  | ctrr (k : BitVec 2)
  /-- `BUFR k`, format X2, `k = idx2` (R143). -/
  | bufr (k : BitVec 2)
  deriving DecidableEq, Repr

/-- What a host puts on the command port: one command word and one operand word (R70). -/
structure Command where
  cmd : Word
  wdata : Word
  deriving DecidableEq, Repr

/-- Why a command word is illegal (R77). -/
inductive IllegalWord where
  /-- The opcode is one of the eight reserved ones. -/
  | reservedOpcode (op : BitVec 4)
  /-- The opcode is that of the command named, and a reserved bit is not 0. -/
  | reservedBits (mnemonic : String)
  deriving DecidableEq, Repr

/-- The nine-way outcome of decoding (R82): a command, or `ILLEGAL` with the reason. -/
inductive Decoded where
  | legal (i : Instr)
  | illegal (why : IllegalWord)
  deriving DecidableEq, Repr

/-- One row of the opcode map: a word `c` spells the row's command exactly when `(c AND mask) = match` (R75). -/
structure OpcodeRow where
  mnemonic : String
  matchWord : Word
  mask : Word
  deriving DecidableEq, Repr

/-- One line of a listing (R80, R81). Operands are numbers as a listing writes them, so a line can be ill-formed. -/
inductive AsmLine where
  | rst
  | seedw (k : Nat) (data : Word)
  | init (n : Nat)
  | nextbits (w : Nat)
  | seedr (k : Nat)
  | stat
  | ctrr (k : Nat)
  | bufr (k : Nat)
  /-- `.word c`: the literal word. -/
  | word (c : Word)
  /-- The pseudo-instruction `LOADSEED b0 b1 ...`. -/
  | loadseed (bytes : List Byte)
  deriving DecidableEq, Repr

end Sys2Proof
end

