-- ==== Sys2Proof/Machine/State.lean ====
section
/-! DEFINITION. The state of the machine as plain data: the ten elements of the engine (R20), the two ports, the hosts
(R200) and the inputs of the coming steps (R12). -/

namespace Sys2Proof.Machine

/-- `STATE`, the life-cycle state (R21): three values, so that the encoding 3, "never written by any rule", cannot be
built (U11). -/
inductive LifeState where
  | uninit
  | ready
  | dead
  deriving DecidableEq, Repr

/-- The status codes that are produced (R160); codes 8 to 15 cannot be built (U11). As the content of `LASTERR`, `ok` is
the code 0, "0 if none since reset" (R20, R31). -/
inductive Status where
  | ok
  | errIllegal
  | errState
  | errSeed
  | errCipherInit
  | errGen
  | errWidth
  | errIndex
  deriving DecidableEq, Repr

/-- The complete state of the engine: "the ten elements below" (R20). -/
structure Engine where
  /-- `STATE` (R21). -/
  state : LifeState
  /-- `SEEDIN[0..31]`, the staging area (R22). -/
  seedin : Bytes 32
  /-- `SVAL[0..7]`: word `k` of `SEEDIN` was written since reset (R23). -/
  sval : BitVec 8
  /-- `SEED[0..31]`, the captured seed (R24). -/
  seed : Bytes 32
  /-- `KLEN`, the length in bytes of the captured seed, 0 when none (R25). -/
  klen : BitVec 6
  /-- `CTR[0..15]`, the counter, byte 0 least significant (R26). -/
  ctr : Block
  /-- `BUF[0..15]`, the most recent ciphertext block (R28). -/
  buf : Block
  /-- `CUR`, the cursor (R29). -/
  cur : BitVec 5
  /-- `POP`: the buffer was populated since `INIT` (R30). -/
  pop : Bool
  /-- `LASTERR` (R31). -/
  lasterr : Status
  deriving DecidableEq, Repr

/-- A request on the command port (R12, R70), with the number of the host that issued it. -/
structure Request where
  host : Nat
  cmd : Word
  wdata : Word
  deriving DecidableEq, Repr

/-- A response on the command port (R78), with the number of the host it goes to. -/
structure Response where
  host : Nat
  status : Status
  rdata : Word
  deriving DecidableEq, Repr

/-- One transaction on the cipher port and whether the cipher core answered `ok` (R60 to R62). -/
inductive CipherTxn where
  /-- `CipherKey(len, key[0..len-1])` (R61). -/
  | key (len : Nat) (bytes : List Byte) (ok : Bool)
  /-- `CipherEnc(block[0..15])` (R62). -/
  | enc (block : Block) (ok : Bool)
  deriving DecidableEq, Repr

/-- A host (R200): what it has still to issue, in its own order; its one outstanding request, if any; the responses it
received, oldest first. -/
structure HostPort where
  program : List Command
  outstanding : Option Command
  received : List Response
  deriving DecidableEq, Repr

/-- Why the machine would stop. Nothing the spec describes does: an error is a status (R160), a next state. -/
inductive Fault where
  /-- Raised by `extractWord` alone, on a read that would reach outside `BUF`. R53: "it never reads outside `BUF`". Safe:
  the refresh decision keeps every state away from it (R38), and no value is made up. -/
  | bufferReadOutside
  deriving DecidableEq, Repr

/-- Why an instruction would have no meaning. -/
inductive Refusal where
  /-- Raised by an arm of `exec` that has no meaning yet. No arm is left that raises it. Safe. -/
  | notModelled (mnemonic : String)
  deriving DecidableEq, Repr

/-- The state of the machine: the engine (R20), its ports (R12, R60, R70), the hosts (R200), and the inputs of the coming
steps. Log entry 1 says why more stands here than the engine. -/
structure State where
  /-- The ten elements (R20). -/
  engine : Engine
  /-- The request on the command port: the one the command in progress executes (R12). -/
  request : Request
  /-- The environment inputs of the command in progress (R12). -/
  env : Env
  /-- The response of the last step's command; none if the last step executed none (R78). -/
  response : Option Response
  /-- The transactions issued on the cipher port, oldest first (R60). Log entry 7. -/
  cipherLog : List CipherTxn
  /-- The hosts, numbered from 0; their number is `N_HOSTS` (R6, R200). Log entry 5. -/
  hosts : List HostPort
  /-- The inputs the outside gives the coming steps; past the list's end they are free. Log entry 2. -/
  inputs : List StepInput
  /-- How many steps were taken: where the free inputs are drawn. The model's own field. Log entry 2. -/
  tick : Nat
  deriving DecidableEq, Repr

/-- The engine after a hardware reset or `RST`: every element at the reset column of R20 (R35, R191). -/
def Engine.reset : Engine where
  state := .uninit
  seedin := Vector.replicate 32 0
  sval := 0
  seed := Vector.replicate 32 0
  klen := 0
  ctr := Vector.replicate 16 0
  buf := Vector.replicate 16 0
  cur := 0
  pop := false
  lasterr := .ok

/-- A host with nothing to issue and nothing received. -/
def HostPort.idle : HostPort := ⟨[], none, []⟩

/-- The machine right after reset, with `n` hosts that have nothing to issue (R35; log entries 5 and 6). -/
def State.resetFor (n : Nat) : State where
  engine := Engine.reset
  request := ⟨0, 0, 0⟩
  env := ⟨false, false⟩
  response := none
  cipherLog := []
  hosts := List.replicate n HostPort.idle
  inputs := []
  tick := 0

/-- The machine right after reset: "after reset the engine waits for commands" (R35). One host (log entry 5). -/
def State.reset : State := State.resetFor 1

end Sys2Proof.Machine
end

