-- ==== Sys2Proof/Machine/Flags.lean ====
section
/-! DEFINITION. The codes of the scalars, the flags and the status word (R20, R23, R32, R160). The engine has no
condition codes (R34): its flags are `POP`, the eight `SVAL` bits and `LASTERR`. -/

namespace Sys2Proof.Machine

/-- The 2-bit value of `STATE` (R20). -/
def LifeState.code : LifeState → BitVec 2
  | .uninit => 0
  | .ready => 1
  | .dead => 2

/-- The 4-bit status code (R160). -/
def Status.code : Status → BitVec 4
  | .ok => 0
  | .errIllegal => 1
  | .errState => 2
  | .errSeed => 3
  | .errCipherInit => 4
  | .errGen => 5
  | .errWidth => 6
  | .errIndex => 7

/-- `SVAL` with bit `k` set (R91). -/
def setValid (sval : BitVec 8) (k : BitVec 3) : BitVec 8 := sval ||| (1#8 <<< k.toNat)

/-- Whether every staging word `k < n/4` has been written, that is, no needed seed byte is absent (R93). -/
def seedStaged (sval : BitVec 8) (n : Nat) : Bool := (List.range (n / 4)).all fun k => sval.getLsbD k

/-- The lengths the engine accepts as a key size: 16, 24 and 32 bytes (R6, R93). -/
def legalSeedLength (n : Nat) : Bool := n == 16 || n == 24 || n == 32

/-- `STATWORD = {000000, SVAL[7..0], KLEN[5:0], LASTERR[3:0], CUR[4:0], POP, STATE[1:0]}` (R32). -/
def statWord (e : Engine) : Word :=
  0#6 ++ e.sval ++ e.klen ++ e.lasterr.code ++ e.cur ++ BitVec.ofBool e.pop ++ e.state.code

end Sys2Proof.Machine
end

