-- ==== Sys2Proof/WellFormed.lean ====
section
/-! DEFINITION. Which listing lines can be assembled (R80, R81), and the well-formedness of a command, which is that
of the line that spells it: the field types of `Instr` leave nothing else to check. -/

namespace Sys2Proof

/-- "An operand outside the range in the table cannot be assembled" (R80); `LOADSEED` takes a multiple of 4 bytes, from
4 to 32 (R81). -/
def AsmLine.wellFormed : AsmLine → Bool
  | .rst => true
  | .seedw k _ => decide (k < 8)
  | .init n => decide (n < 64)
  | .nextbits w => decide (w < 64)
  | .seedr k => decide (k < 8)
  | .stat => true
  | .ctrr k => decide (k < 4)
  | .bufr k => decide (k < 4)
  | .word _ => true
  | .loadseed bytes => decide (bytes.length % 4 = 0 ∧ 4 ≤ bytes.length ∧ bytes.length ≤ 32)

/-- The listing line that spells a command; `data` is the operand word of `SEEDW` (R80). -/
def Instr.toAsm (data : Word) : Instr → AsmLine
  | .rst => .rst
  | .seedw k => .seedw k.toNat data
  | .init n => .init n.toNat
  | .nextbits w => .nextbits w.toNat
  | .seedr k => .seedr k.toNat
  | .stat => .stat
  | .ctrr k => .ctrr k.toNat
  | .bufr k => .bufr k.toNat

/-- A command is well-formed when the line that spells it is: every operand inside its field's range (R80, R82). -/
def Instr.wellFormed (i : Instr) : Bool := (i.toAsm 0).wellFormed

end Sys2Proof
end

