-- ==== Sys2Proof/Decode.lean ====
section
/-! DEFINITION. Decoding, encoding and the opcode map (R70 to R82), and the assembler of the listings (R80, R81). -/

namespace Sys2Proof

/-- The opcode field `op = c[31:28]` (R70). -/
def opField (c : Word) : BitVec 4 := c.extractLsb' 28 4

/-- The reserved bits of a word whose operand field has `n` bits: `c[27:n]` (R71 to R74). -/
def reservedArea (n : Nat) (c : Word) : BitVec (28 - n) := c.extractLsb' n (28 - n)

/-- `idx3 = zext(cmd[2:0])` (R72, R76). -/
def idx3Field (c : Word) : BitVec 3 := c.extractLsb' 0 3

/-- `idx2 = zext(cmd[1:0])` (R73, R76). -/
def idx2Field (c : Word) : BitVec 2 := c.extractLsb' 0 2

/-- `val6 = zext(cmd[5:0])` (R74, R76). -/
def val6Field (c : Word) : BitVec 6 := c.extractLsb' 0 6

/-- One opcode's decoding: the command if the reserved bits above its `n`-bit operand are 0, else illegal (R77). -/
def decodeReserved (n : Nat) (mnemonic : String) (i : Instr) (c : Word) : Decoded :=
  if reservedArea n c = 0 then .legal i else .illegal (.reservedBits mnemonic)

/-- The decoder, a total function on 32-bit words (R82). -/
def decode (c : Word) : Decoded :=
  match (opField c).toNat with
  | 1 => decodeReserved 0 "RST" .rst c
  | 2 => decodeReserved 3 "SEEDW" (.seedw (idx3Field c)) c
  | 3 => decodeReserved 6 "INIT" (.init (val6Field c)) c
  | 4 => decodeReserved 6 "NEXTBITS" (.nextbits (val6Field c)) c
  | 5 => decodeReserved 3 "SEEDR" (.seedr (idx3Field c)) c
  | 6 => decodeReserved 0 "STAT" .stat c
  | 7 => decodeReserved 2 "CTRR" (.ctrr (idx2Field c)) c
  | 8 => decodeReserved 2 "BUFR" (.bufr (idx2Field c)) c
  | _ => .illegal (.reservedOpcode (opField c))

/-- The command of a decoded word, none if it is illegal. -/
def Decoded.instr? : Decoded → Option Instr
  | .legal i => some i
  | .illegal _ => none

/-- The decoder as the opcode table numbers an instruction: the one length is 32 bits (R70, R79), so a row of more bits
is no instruction of the engine. The operand word `wdata` is no part of the decoding (R82). -/
def decodeTableWord (nbits w : Nat) : Option Instr :=
  if nbits ≤ 32 ∧ w < 2 ^ nbits then (decode (BitVec.ofNat 32 w)).instr? else none

/-- The command word of a command: `encode(SEEDW k) = 0x20000000 + k`, and so on (R82). -/
def encode : Instr → Word
  | .rst => 0x10000000#32
  | .seedw k => 0x20000000#32 + k.setWidth 32
  | .init n => 0x30000000#32 + n.setWidth 32
  | .nextbits w => 0x40000000#32 + w.setWidth 32
  | .seedr k => 0x50000000#32 + k.setWidth 32
  | .stat => 0x60000000#32
  | .ctrr k => 0x70000000#32 + k.setWidth 32
  | .bufr k => 0x80000000#32 + k.setWidth 32

/-- The mnemonic of a command (R75). -/
def Instr.mnemonic : Instr → String
  | .rst => "RST"
  | .seedw _ => "SEEDW"
  | .init _ => "INIT"
  | .nextbits _ => "NEXTBITS"
  | .seedr _ => "SEEDR"
  | .stat => "STAT"
  | .ctrr _ => "CTRR"
  | .bufr _ => "BUFR"

/-- The opcode map, `match` and `mask` of each row (R75). -/
def opcodeMap : List OpcodeRow :=
  [ ⟨"RST", 0x10000000#32, 0xFFFFFFFF#32⟩,
    ⟨"SEEDW", 0x20000000#32, 0xFFFFFFF8#32⟩,
    ⟨"INIT", 0x30000000#32, 0xFFFFFFC0#32⟩,
    ⟨"NEXTBITS", 0x40000000#32, 0xFFFFFFC0#32⟩,
    ⟨"SEEDR", 0x50000000#32, 0xFFFFFFF8#32⟩,
    ⟨"STAT", 0x60000000#32, 0xFFFFFFFF#32⟩,
    ⟨"CTRR", 0x70000000#32, 0xFFFFFFFC#32⟩,
    ⟨"BUFR", 0x80000000#32, 0xFFFFFFFC#32⟩ ]

/-- A word spells the command of a row exactly when `(c AND mask) = match` (R75). -/
def OpcodeRow.spells (r : OpcodeRow) (c : Word) : Bool := decide (c &&& r.mask = r.matchWord)

/-- `PACK(b0, b1, b2, b3) = {b3, b2, b1, b0}`: the byte at the lowest index in the least significant lane (R9, R54). -/
def packLanes (b0 b1 b2 b3 : Byte) : Word := b3 ++ b2 ++ b1 ++ b0

/-- The `SEEDW` commands of a seed, word `k` first: four bytes to a word (R81). -/
def seedWords : Nat → List Byte → List Command
  | k, b0 :: b1 :: b2 :: b3 :: rest =>
    ⟨0x20000000#32 + BitVec.ofNat 32 k, packLanes b0 b1 b2 b3⟩ :: seedWords (k + 1) rest
  | _, _ => []

/-- The commands a listing line stands for, none if it cannot be assembled (R80, R81). Where `wdata` is ignored, a
listing uses 0. -/
def assemble (line : AsmLine) : Option (List Command) :=
  if line.wellFormed then
    match line with
    | .rst => some [⟨encode .rst, 0⟩]
    | .seedw k data => some [⟨encode (.seedw (BitVec.ofNat 3 k)), data⟩]
    | .init n => some [⟨encode (.init (BitVec.ofNat 6 n)), 0⟩]
    | .nextbits w => some [⟨encode (.nextbits (BitVec.ofNat 6 w)), 0⟩]
    | .seedr k => some [⟨encode (.seedr (BitVec.ofNat 3 k)), 0⟩]
    | .stat => some [⟨encode .stat, 0⟩]
    | .ctrr k => some [⟨encode (.ctrr (BitVec.ofNat 2 k)), 0⟩]
    | .bufr k => some [⟨encode (.bufr (BitVec.ofNat 2 k)), 0⟩]
    | .word c => some [⟨c, 0⟩]
    | .loadseed bytes => some (seedWords 0 bytes)
  else none

end Sys2Proof
end

