-- ==== Sys2Proof/Machine/Operands.lean ====
section
/-! DEFINITION. The byte orders and the word views of the byte arrays (R9, R51, R52, R54). -/

namespace Sys2Proof.Machine

/-- `UNPACK(w)`, lane `j`: bits `[8j+7:8j]` of the word (R9, R91). -/
def lane (w : Word) (j : Nat) : Byte := w.extractLsb' (8 * j) 8

/-- `BE32(b0, b1, b2, b3) = {b0, b1, b2, b3}`: the byte at the lowest index most significant (R9, R52). -/
def be32 (b0 b1 b2 b3 : Byte) : Word := b0 ++ b1 ++ b2 ++ b3

/-- The integer a list of bytes stands for, the first byte least significant. -/
def littleEndian : List Byte → Nat
  | [] => 0
  | b :: bs => b.toNat + 256 * littleEndian bs

/-- `LE128(A) = sum over i of A[i] * 256^i` (R9). -/
def le128 (a : Block) : Nat := littleEndian a.toList

/-- `bytes16(m)`: the 16-byte array with `LE128(bytes16(m)) = m`, for `m` below `2^128` (R132). -/
def bytes16 (m : Nat) : Block := Vector.ofFn fun i => BitVec.ofNat 8 (m / 256 ^ i.val)

/-- Word `k` of a 32-byte array: `PACK(A[4k], A[4k+1], A[4k+2], A[4k+3])` (R54). -/
def seedWord (a : Bytes 32) (k : BitVec 3) : Word :=
  packLanes (a[4 * k.toNat]'(by omega)) (a[4 * k.toNat + 1]'(by omega))
    (a[4 * k.toNat + 2]'(by omega)) (a[4 * k.toNat + 3]'(by omega))

/-- Word `k` of a 16-byte array: `PACK(A[4k], A[4k+1], A[4k+2], A[4k+3])` (R54). -/
def blockWord (a : Block) (k : BitVec 2) : Word :=
  packLanes (a[4 * k.toNat]'(by omega)) (a[4 * k.toNat + 1]'(by omega))
    (a[4 * k.toNat + 2]'(by omega)) (a[4 * k.toNat + 3]'(by omega))

/-- Write of word `k` of a 32-byte array: `A[4k+j] <- w[8j+7:8j]` for `j` = 0..3 (R54, R91). -/
def setSeedWord (a : Bytes 32) (k : BitVec 3) (w : Word) : Bytes 32 :=
  (((a.set (4 * k.toNat) (lane w 0) (by omega)).set (4 * k.toNat + 1) (lane w 1) (by omega)).set
    (4 * k.toNat + 2) (lane w 2) (by omega)).set (4 * k.toNat + 3) (lane w 3) (by omega)

/-- The first `n` bytes of a 32-byte array, zeros above them: `SEED[i] <- SEEDIN[i]` for `i < n`, 0 for `i >= n` (R92). -/
def captureBytes (a : Bytes 32) (n : Nat) : Bytes 32 := Vector.ofFn fun i => if i.val < n then a[i] else 0

/-- `MemRead(addr, 4)` on the buffer: `BUF[addr..addr+3]` as the four bytes of a big-endian word; none where it would
reach outside the 16 bytes (R52, R53). -/
def readBufWord (buf : Block) (addr : Nat) : Option Word :=
  if h : addr + 4 ≤ 16 then some (be32 buf[addr] buf[addr + 1] buf[addr + 2] buf[addr + 3]) else none

end Sys2Proof.Machine
end

