-- ==== Sys2Proof/Machine/Ops.lean ====
section
/-! DEFINITION. The shared operations: answering a command, taking an error, resetting the engine, the two transactions
of the cipher port (R11, R35, R60 to R63, R162, R163). -/

namespace Sys2Proof.Machine

/-- The state with another engine, the ports as they were. -/
def State.withEngine (e : Engine) (s : State) : State := { s with engine := e }

/-- The response `(status, rdata)` on the command port, for the host that issued the request (R78). -/
def State.answer (status : Status) (rdata : Word) (s : State) : State :=
  { s with response := some ⟨s.request.host, status, rdata⟩ }

/-- One more transaction on the cipher port (R60). -/
def State.logTxn (t : CipherTxn) (s : State) : State := { s with cipherLog := s.cipherLog ++ [t] }

/-- The request `r` on the command port, with its draws, and no response yet (R12). -/
def State.present (r : Request) (e : Env) (s : State) : State :=
  { s with request := r, env := e, response := none }

/-- `respond(v)`: "end the command with response `(status = OK, rdata = v)`" (R11). `LASTERR` stays (R163). -/
def respond (v : Word) (s : State) : State := s.answer .ok v

/-- `raise <Status>`: taking an error. The response is `(status, 0)` and `LASTERR <- status`; the engine is otherwise as
the command left it (R11, R162, R163). There is no handler and no return from one: "There is no return-from-trap
instruction because there is no handler context to leave" (R175). -/
def raise (status : Status) (s : State) : State :=
  (s.withEngine { s.engine with lasterr := status }).answer status 0

/-- Every element of the engine at its reset value, as a hardware reset and `RST` both put it (R35, R190). The ports are
not touched: "The cipher core's key is not touched by any transaction" (R90). -/
def resetEngine (s : State) : State := s.withEngine Engine.reset

/-- The key of an instance: `SEED[0..KLEN-1]` (R36, R62). -/
def Engine.key (e : Engine) : List Byte := e.seed.toList.take e.klen.toNat

/-- `CipherKey(n, SEEDIN[0..n-1])`: one key-load transaction, answered by the draw `kinit_ok` (R61). -/
def cipherKey (n : Nat) (s : State) : State × Bool :=
  (s.logTxn (.key n (s.engine.seedin.toList.take n) s.env.kinitOk), s.env.kinitOk)

/-- `CipherEnc(block)`: one block encryption, answered by the draw `enc_ok`; if it is true the ciphertext is
`E(KLEN, SEED[0..KLEN-1], block)`, if not there is none (R62, R63). -/
def cipherEnc (E : Cipher) (block : Block) (s : State) : State × Option Block :=
  (s.logTxn (.enc block s.env.encOk),
    if s.env.encOk then some (E s.engine.klen.toNat s.engine.key block) else none)

/-- The answer to a command word that matches no row of the opcode map: `ERR_ILLEGAL`, in every state (R77, R165). -/
def illegalCommand (s : State) : State := raise .errIllegal s

/-- Continue after a step that answered a next state; a fault or a refusal stays what it is. -/
def onNext (f : State → State) : Host.Outcome State Fault Refusal → Host.Outcome State Fault Refusal
  | .next s => .next (f s)
  | .fault r => .fault r
  | .refused r => .refused r

end Sys2Proof.Machine
end

