-- ==== Sys2Proof/Machine/Generation.lean ====
section
/-! DEFINITION. `NEXTBITS` and its six micro-operations (41_generation.md), for any block cipher `E`. -/

namespace Sys2Proof.Machine

/-- `refreshNeeded(POP, CUR) = (POP = 0) or (16 - CUR < 4)`, over the integers (R111). -/
def refreshNeeded (pop : Bool) (cur : BitVec 5) : Bool :=
  !pop || decide ((16 : Int) - cur.toNat < 4)

/-- The ripple carry over the bytes from the least significant up: stop at the first byte that does not wrap to 0
(R112). -/
def rippleCarry : List Byte → List Byte
  | [] => []
  | b :: bs => if b + 1 ≠ 0 then (b + 1) :: bs else (b + 1) :: rippleCarry bs

theorem rippleCarry_length (bs : List Byte) : (rippleCarry bs).length = bs.length := by
  induction bs with
  | nil => rfl
  | cons b bs ih => simp only [rippleCarry]; split <;> simp [ih]

/-- `incrementCounter(C)`: the counter plus one, silently all zero after all ones (R112). -/
def incrementCounter (c : Block) : Block :=
  ⟨(rippleCarry c.toList).toArray, by simp [rippleCarry_length]⟩

/-- `nextBlock`: increment the counter, then encrypt it (R113). -/
def nextBlock (E : Cipher) (s : State) : State × Option Block :=
  let t := s.withEngine { s.engine with ctr := incrementCounter s.engine.ctr }
  cipherEnc E t.engine.ctr t

/-- `refresh`: the new block in the buffer, the cursor at 0, `POP` set (R114). -/
def refresh (ct : Block) (s : State) : State :=
  s.withEngine { s.engine with buf := ct, cur := 0, pop := true }

/-- `extractWord`: the big-endian word of the four bytes at the cursor, and the cursor advanced by 4 (R115); none where
it would read outside the buffer (R53). -/
def extractWord (s : State) : Option (Word × State) :=
  match readBufWord s.engine.buf s.engine.cur.toNat with
  | none => none
  | some w => some (w, s.withEngine { s.engine with cur := s.engine.cur + 4 })

/-- `alignBits(W, w) = W >> (32 - w)`, logical, the amount not reduced modulo 32 (R116, R10). -/
def alignBits (word : Word) (w : Nat) : Word := word >>> (32 - w)

/-- Steps 3 and 4 of `nextBits`: extract a word and return its top `w` bits (R115, R116). -/
def deliverBits (w : Nat) (s : State) : Host.Outcome State Fault Refusal :=
  match extractWord s with
  | none => .fault .bufferReadOutside
  | some (word, t) => .next (respond (alignBits word w) t)

/-- Step 2 and on, for a command that needs a refresh: the next block, or the end of the instance if the cipher core
fails; then the increment stands, and `BUF`, `CUR`, `POP` stay (R114, R120). -/
def refreshAndDeliver (E : Cipher) (w : Nat) (s : State) : Host.Outcome State Fault Refusal :=
  match nextBlock E s with
  | (t, none) => .next (raise .errGen (t.withEngine { t.engine with state := .dead }))
  | (t, some ct) => deliverBits w (refresh ct t)

/-- `NEXTBITS w` over the block cipher `E`, in the order of R110 and R164. -/
def nextBits (E : Cipher) (w : BitVec 6) (s : State) : Host.Outcome State Fault Refusal :=
  match s.engine.state with
  | .uninit => .next (raise .errState s)
  | .dead => .next (raise .errGen s)
  | .ready =>
    if 32 < w.toNat then .next (raise .errWidth s)
    else if refreshNeeded s.engine.pop s.engine.cur then refreshAndDeliver E w.toNat s
    else deliverBits w.toNat s

/-- `NEXTBITS w` over the block cipher the engine is attached to (R110). -/
def execNextbits (w : BitVec 6) (s : State) : Host.Outcome State Fault Refusal := nextBits Config.cipher w s

end Sys2Proof.Machine
end

