-- ==== Sys2Proof/Machine/Lifecycle.lean ====
section
/-! DEFINITION. The construction commands `RST`, `SEEDW`, `INIT` (40_lifecycle.md). -/

namespace Sys2Proof.Machine

/-- `RST`: return the engine to its reset state, in every state (R90). -/
def execRst (s : State) : Host.Outcome State Fault Refusal := .next (respond 0 (resetEngine s))

/-- `SEEDW k, data`: write one word of the staging area and its valid bit, in every state (R91). The data is the operand
word of the request (R70). -/
def execSeedw (k : BitVec 3) (s : State) : Host.Outcome State Fault Refusal :=
  .next (respond 0 (s.withEngine
    { s.engine with
      seedin := setSeedWord s.engine.seedin k s.request.wdata
      sval := setValid s.engine.sval k }))

/-- The engine of a new instance: the seed captured, counter and buffer at zero, never populated, `READY` (R92).
`SEEDIN`, `SVAL` and `LASTERR` are not written. -/
def constructed (n : BitVec 6) (e : Engine) : Engine :=
  { e with
    seed := captureBytes e.seedin n.toNat
    klen := n
    ctr := Vector.replicate 16 0
    buf := Vector.replicate 16 0
    cur := 0
    pop := false
    state := .ready }

/-- `INIT n`: construct an instance from the staged seed of `n` bytes. Checks in the order of R164: state, seed (R93),
cipher core (R168); a failed `INIT` constructs nothing (R95). (R92.) -/
def execInit (n : BitVec 6) (s : State) : Host.Outcome State Fault Refusal :=
  if s.engine.state ≠ .uninit then .next (raise .errState s)
  else if legalSeedLength n.toNat = false then .next (raise .errSeed s)
  else if seedStaged s.engine.sval n.toNat = false then .next (raise .errSeed s)
  else
    match cipherKey n.toNat s with
    | (t, false) => .next (raise .errCipherInit t)
    | (t, true) => .next (respond 0 (t.withEngine (constructed n t.engine)))

end Sys2Proof.Machine
end

