-- ==== Sys2Proof/Machine/Readout.lean ====
section
/-! DEFINITION. The read-out commands `SEEDR`, `STAT`, `CTRR`, `BUFR` (42_readout.md). -/

namespace Sys2Proof.Machine

/-- `SEEDR k`: word `k` of the captured seed, in `READY` and `DEAD`, for `k < KLEN/4` (R140). -/
def execSeedr (k : BitVec 3) (s : State) : Host.Outcome State Fault Refusal :=
  if s.engine.state = .uninit then .next (raise .errState s)
  else if s.engine.klen.toNat / 4 ≤ k.toNat then .next (raise .errIndex s)
  else .next (respond (seedWord s.engine.seed k) s)

/-- `STAT`: the status word, in every state (R141). -/
def execStat (s : State) : Host.Outcome State Fault Refusal := .next (respond (statWord s.engine) s)

/-- `CTRR k`: word `k` of the counter, in every state (R142). -/
def execCtrr (k : BitVec 2) (s : State) : Host.Outcome State Fault Refusal :=
  .next (respond (blockWord s.engine.ctr k) s)

/-- `BUFR k`: word `k` of the buffer, in every state; it does not consume (R143). -/
def execBufr (k : BitVec 2) (s : State) : Host.Outcome State Fault Refusal :=
  .next (respond (blockWord s.engine.buf k) s)

end Sys2Proof.Machine
end

