-- ==== Sys2Proof/Machine/Dispatch.lean ====
section
/-! DEFINITION. One arm per command: its meaning (R75). -/

namespace Sys2Proof.Machine

def exec (i : Instr) (s : State) : Host.Outcome State Fault Refusal :=
  match i with
  | .rst => Sys2Proof.Machine.execRst s
  | .seedw k => Sys2Proof.Machine.execSeedw k s
  | .init n => Sys2Proof.Machine.execInit n s
  | .nextbits w => Sys2Proof.Machine.execNextbits w s
  | .seedr k => Sys2Proof.Machine.execSeedr k s
  | .stat => Sys2Proof.Machine.execStat s
  | .ctrr k => Sys2Proof.Machine.execCtrr k s
  | .bufr k => Sys2Proof.Machine.execBufr k s

end Sys2Proof.Machine
end

