-- ==== Sys2Proof/Machine/Port.lean ====
section
/-! DEFINITION. The hosts, the arbiter and the inputs of a step (R12, R190, R200, R201): what stands around the
engine's own step. -/

namespace Sys2Proof.Machine

/-- The inputs of the coming step: the first the outside gives, or the free ones where it gives none. Log entry 2. -/
def nextInput (s : State) : StepInput :=
  match s.inputs with
  | i :: _ => i
  | [] => ⟨Config.freeHardReset s.tick, Config.freeGrant s.tick,
      ⟨Config.freeKinitOk s.tick, Config.freeEncOk s.tick⟩⟩

/-- A host's own step: with nothing outstanding, "issue the next request of my program" (R200). -/
def HostPort.issue (p : HostPort) : HostPort :=
  match p.outstanding, p.program with
  | none, c :: rest => { p with outstanding := some c, program := rest }
  | _, _ => p

/-- A host's other step: "receive my response" (R200), which ends its outstanding request. -/
def HostPort.receive (r : Response) (p : HostPort) : HostPort :=
  { p with outstanding := none, received := p.received ++ [r] }

/-- What opens every step: the inputs are taken, no response is on the port, and each host with nothing outstanding
issues its next request. Log entry 4. -/
def beginStep (s : State) : State :=
  { s with
    response := none
    hosts := s.hosts.map HostPort.issue
    inputs := s.inputs.tail
    tick := s.tick + 1 }

/-- The outstanding request of host `h`, if any. -/
def outstandingAt (h : Nat) (hosts : List HostPort) : Option Command :=
  match hosts[h]? with
  | some p => p.outstanding
  | none => none

/-- The first host, counted from `n`, with a request outstanding, and that request. -/
def firstOutstanding : Nat → List HostPort → Option (Nat × Command)
  | _, [] => none
  | n, p :: rest =>
    match p.outstanding with
    | some c => some (n, c)
    | none => firstOutstanding (n + 1) rest

/-- The arbiter's choice: the preferred host `g` if it has a request outstanding, else the first host that has one (R201).
Every choice of an outstanding request is some `g`. Log entry 4. -/
def arbitrate (g : Nat) (hosts : List HostPort) : Option (Nat × Command) :=
  match outstandingAt g hosts with
  | some c => some (g, c)
  | none => firstOutstanding 0 hosts

/-- The response on the port goes "to the host that issued the request" (R78, R65). -/
def deliver (s : State) : State :=
  match s.response with
  | some r => { s with hosts := s.hosts.modify r.host (HostPort.receive r) }
  | none => s

end Sys2Proof.Machine
end

