-- ==== Sys2Proof/Machine/Step.lean ====
section
/-! DEFINITION. One command (R12), one step of the whole machine (R202), and placing an instruction where the next step
takes it. -/

namespace Sys2Proof.Machine

/-- The engine's step of R12, `State x Request x Env -> State x Response`: decode the command word, execute it, with the
response left on the port. Every 32-bit word has a response (R12, R77). -/
def serve (r : Request) (e : Env) (s : State) : Host.Outcome State Fault Refusal :=
  match decode r.cmd with
  | .legal i => exec i (s.present r e)
  | .illegal _ => .next (illegalCommand (s.present r e))

/-- One step of the machine: a hardware reset, if the inputs bring one (R190; log entry 8); else the command the arbiter
grants, its response delivered to its host (R201, R202, R207); with no request outstanding, waiting (R202; log entry
12). -/
def step (s : State) : Host.Outcome State Fault Refusal :=
  if (nextInput s).hardReset then .next (resetEngine (beginStep s))
  else
    match arbitrate (nextInput s).grant (beginStep s).hosts with
    | none => .next (beginStep s)
    | some (h, c) => onNext deliver (serve ⟨h, c.cmd, c.wdata⟩ (nextInput s).env (beginStep s))

/-- The hosts with host 0 having the command outstanding. -/
def placeCommand (c : Command) : List HostPort → List HostPort
  | [] => [⟨[], some c, []⟩]
  | p :: rest => { p with outstanding := some c } :: rest

/-- The state with the command word outstanding at host 0 and granted by the coming step, which no hardware reset takes;
`wdata` is 0. The engine fetches nothing (R27): this stands for a host placing a request. Log entry 13. -/
def State.withFetchWord (s : State) (nbits w : Nat) : State :=
  { s with
    hosts := placeCommand ⟨BitVec.ofNat 32 (w % 2 ^ nbits), 0⟩ s.hosts
    inputs := { nextInput s with hardReset := false, grant := 0 } :: s.inputs.tail }

end Sys2Proof.Machine
end

