-- ==== Sys2Proof/Safety.lean ====
section
/-! DEFINITION. The vocabulary of the claims: the invariants of R37, the check order of R164, runs of commands, the
keystream of R132. Nothing here is used by the machine. -/

namespace Sys2Proof.Safety

open Sys2Proof.Machine

/-- The legal values of `KLEN` (R25). -/
def legalKlen (n : BitVec 6) : Prop := n = 0 ∨ n = 16 ∨ n = 24 ∨ n = 32

/-- What R37 says of the engine's elements in every reachable state, item by item; items 1 and 9 hold by the types. -/
structure EngineInv (E : Cipher) (e : Engine) : Prop where
  /-- Item 2: "`STATE = UNINIT` if and only if `KLEN = 0`; otherwise `KLEN` is 16, 24 or 32." -/
  uninit_iff : e.state = .uninit ↔ e.klen = 0
  klen_legal : legalKlen e.klen
  /-- Item 3: "`STATE = UNINIT` implies `SEED`, `CTR`, `BUF` all zero, `CUR = 0`, `POP = 0`." -/
  uninit_zero : e.state = .uninit →
    e.seed = Vector.replicate 32 0 ∧ e.ctr = Vector.replicate 16 0 ∧ e.pop = false
  /-- Item 4: "`CUR` is one of 0, 4, 8, 12, 16", and "`POP = 1` implies `CUR` is one of 4, 8, 12, 16". -/
  cursor : e.cur = 0 ∨ e.cur = 4 ∨ e.cur = 8 ∨ e.cur = 12 ∨ e.cur = 16
  populated_cursor : e.pop = true → e.cur ≠ 0
  /-- Item 5: "`POP = 0` implies `BUF` all zero and `CUR = 0`", and what the counter then holds. -/
  unpopulated : e.pop = false → e.buf = Vector.replicate 16 0 ∧ e.cur = 0
  unpopulated_counter : e.pop = false → e.state ≠ .dead → e.ctr = Vector.replicate 16 0
  unpopulated_dead : e.pop = false → e.state = .dead → le128 e.ctr = 1
  /-- Item 6: "`STATE = READY` and `POP = 1` imply `BUF = E(KLEN, SEED[0..KLEN-1], CTR[0..15])`." -/
  buffer : e.state = .ready → e.pop = true → e.buf = E e.klen.toNat e.key e.ctr
  /-- Item 8, second half: in `DEAD` "`BUF`, `CUR`, `POP` are as the last completed refresh and the extractions after it
  left them". The refresh that failed was needed, so all of that block was consumed; it is the block of the one counter value
  that the failed increment went from (the case `POP = 0` is item 5). -/
  dead_buffer : e.state = .dead → e.pop = true →
    e.cur = 16 ∧ ∃ before : Block, le128 e.ctr = (le128 before + 1) % 2 ^ 128 ∧ e.buf = E e.klen.toNat e.key before
  /-- Item 10: "`SEED[i] = 0` for every `i >= KLEN`." -/
  seed_tail : ∀ i : Fin 32, e.klen.toNat ≤ i.val → e.seed[i] = 0

/-- The completed refreshes of the current instance: the block encryptions answered `ok` since the last key load answered
`ok` (R61, R62). -/
def completedRefreshes (log : List CipherTxn) : Nat :=
  log.foldl (fun n t =>
    match t with
    | .key _ _ true => 0
    | .enc _ true => n + 1
    | _ => n) 0

/-- Item 7 and the first half of item 8 of R37: in `READY` the counter is the number of refreshes since `INIT`, modulo `2^128`; in `DEAD` it is
one more than the number of completed refreshes. -/
structure CounterInv (s : State) : Prop where
  ready : s.engine.state = .ready → le128 s.engine.ctr = completedRefreshes s.cipherLog % 2 ^ 128
  dead : s.engine.state = .dead → le128 s.engine.ctr = (completedRefreshes s.cipherLog + 1) % 2 ^ 128

/-- The invariants of R37, over the cipher the engine is attached to. -/
def MachineInv (s : State) : Prop := EngineInv Config.cipher s.engine ∧ CounterInv s

/-- The admissibility table (R166): `ok` where the command is admissible, else the status it is refused with. -/
def admission : Instr → LifeState → Status
  | .init _, .ready => .errState
  | .init _, .dead => .errState
  | .nextbits _, .uninit => .errState
  | .nextbits _, .dead => .errGen
  | .seedr _, .uninit => .errState
  | _, _ => .ok

/-- Step 3 of the check order (R164): what the operand is refused with, if the state admits the command. -/
def operandCheck (i : Instr) (e : Engine) : Status :=
  match i with
  | .nextbits w => if 32 < w.toNat then .errWidth else .ok
  | .init n =>
    if (n = 16 ∨ n = 24 ∨ n = 32) ∧ ∀ k : Fin 8, k.val < n.toNat / 4 → e.sval.getLsbD k.val = true then .ok
    else .errSeed
  | .seedr k => if k.toNat < e.klen.toNat / 4 then .ok else .errIndex
  | _ => .ok

/-- Step 4 of the check order (R164): what the cipher core's answer makes of the command. -/
def executionCheck (i : Instr) (env : Env) (e : Engine) : Status :=
  match i with
  | .init _ => if env.kinitOk then .ok else .errCipherInit
  | .nextbits _ => if (e.pop = false ∨ 13 ≤ e.cur.toNat) ∧ env.encOk = false then .errGen else .ok
  | _ => .ok

/-- The status of a command word by the check order of R164: decode, then state, then operand, then execution; the first
that is not `OK`. -/
def statusInOrder (c : Word) (env : Env) (e : Engine) : Status :=
  match decode c with
  | .illegal _ => .errIllegal
  | .legal i =>
    if admission i e.state ≠ .ok then admission i e.state
    else if operandCheck i e ≠ .ok then operandCheck i e
    else executionCheck i env e

/-- The commands that return data when their status is `OK` (R78). -/
def returnsData : Instr → Bool
  | .nextbits _ => true
  | .seedr _ => true
  | .stat => true
  | .ctrr _ => true
  | .bufr _ => true
  | _ => false

/-- The engine with another `LASTERR`. -/
def withLasterr (st : Status) (e : Engine) : Engine := { e with lasterr := st }

/-- A command that ended in an error with no effect but the record of it (R162, R163): `LASTERR` and the response. -/
def refusedWith (st : Status) (s : State) : State :=
  { s with engine := withLasterr st s.engine, response := some ⟨s.request.host, st, 0⟩ }

/-- A command that returned `(OK, v)` and changed nothing. -/
def answeredWith (v : Word) (s : State) : State := { s with response := some ⟨s.request.host, .ok, v⟩ }

/-- Whether a request is a well-formed `RST`. -/
def isRst (r : Request) : Bool := decide (decode r.cmd = .legal .rst)

/-- A run of granted requests, each with its draws (R208): the responses, oldest first, and the final state; none if a
command faulted or was refused. -/
def serveAll : List (Request × Env) → State → Option (List Response × State)
  | [], s => some ([], s)
  | (r, e) :: rest, s =>
    match serve r e s with
    | .next t =>
      match t.response, serveAll rest t with
      | some a, some (answers, u) => some (a :: answers, u)
      | _, _ => none
    | _ => none

/-- Whether a request is a `NEXTBITS`. -/
def isNextbits (x : Request × Env) : Bool :=
  match decode x.1.cmd with
  | .legal (.nextbits _) => true
  | _ => false

/-- The responses to the `NEXTBITS` requests of a run, in order. -/
def nextbitsAnswers (requests : List (Request × Env)) (answers : List Response) : List Response :=
  ((requests.zip answers).filter fun x => isNextbits x.1).map Prod.snd

/-- The requests of a run with their responses, of which only the `NEXTBITS` that succeeded (R132). -/
def successfulNextbits (requests : List (Request × Env)) (answers : List Response) :
    List ((Request × Env) × Response) :=
  (requests.zip answers).filter fun x => isNextbits x.1 && decide (x.2.status = .ok)

/-- The command `NEXTBITS 32` as a host issues it. -/
def nextbits32 : Command := ⟨encode (.nextbits 32), 0⟩

/-- How many words of the counter's block are consumed: all four while the buffer was never populated (R27, R111). -/
def consumedWords (e : Engine) : Nat := if e.pop then e.cur.toNat / 4 else 4

/-- Word `q` of the keystream counted from the start of the block of the engine's counter (R132): the big-endian word at
offset `4 * (q mod 4)` of `E(KLEN, SEED[0..KLEN-1], bytes16(LE128(CTR) + floor(q / 4)))`. -/
def streamWord (E : Cipher) (e : Engine) (q : Nat) : Word :=
  let block := E e.klen.toNat e.key (bytes16 ((le128 e.ctr + q / 4) % 2 ^ 128))
  be32 (block[4 * (q % 4)]'(by omega)) (block[4 * (q % 4) + 1]'(by omega))
    (block[4 * (q % 4) + 2]'(by omega)) (block[4 * (q % 4) + 3]'(by omega))

/-- What a host has still to be served, in its order: the outstanding request, then its program (R200). -/
def todo (p : HostPort) : List Command := p.outstanding.toList ++ p.program

end Sys2Proof.Safety
end

