-- ==== Sys2Proof/Certificates/Slice0/Obligations.lean ====
section
/-! DEFINITION. What is claimed of the machine, from the numbered rules of spec/. -/

open Sys2Proof Sys2Proof.Machine Sys2Proof.Safety

-- Encoding (30_encoding.md)

/-- R82: every command is well-formed and the decoder reads back its encoding; a word the decoder accepts is the encoding
of what it reads; the encodings are the words of the rule, so with the two directions above the words of each command
are exactly those; and the rule's two examples. -/
def Obligations.DecodeInvertsEncode : Prop :=
  (∀ i : Instr, i.wellFormed = true ∧ decode (encode i) = .legal i) ∧
  (∀ (c : Word) (i : Instr), decode c = .legal i → encode i = c) ∧
  ((encode .rst).toNat = 0x10000000 ∧ (encode .stat).toNat = 0x60000000) ∧
  (∀ k : BitVec 3, (encode (.seedw k)).toNat = 0x20000000 + k.toNat ∧
    (encode (.seedr k)).toNat = 0x50000000 + k.toNat) ∧
  (∀ n : BitVec 6, (encode (.init n)).toNat = 0x30000000 + n.toNat ∧
    (encode (.nextbits n)).toNat = 0x40000000 + n.toNat) ∧
  (∀ k : BitVec 2, (encode (.ctrr k)).toNat = 0x70000000 + k.toNat ∧
    (encode (.bufr k)).toNat = 0x80000000 + k.toNat) ∧
  decode 0x40000020#32 = .legal (.nextbits 32) ∧ (decode 0x40000120#32).instr? = none

/-- 30_encoding.md section 2: "A command word `c` spells the command of a row exactly when `(c AND mask) = match`. The
eight patterns are pairwise disjoint." -/
def Obligations.OpcodeMapSelectsTheCommand : Prop :=
  (∀ (c : Word) (row : OpcodeRow), row ∈ opcodeMap →
    (row.spells c = true ↔ ∃ i, decode c = .legal i ∧ i.mnemonic = row.mnemonic)) ∧
  opcodeMap.Pairwise fun a b => ∀ c : Word, ¬(a.spells c = true ∧ b.spells c = true)

/-- R77, R165: which words are illegal, in numbers, and that an illegal word is answered `(ERR_ILLEGAL, 0)` in every
state and changes nothing but `LASTERR`. -/
def Obligations.IllegalWordsChangeOnlyLasterr : Prop :=
  (∀ c : Word, (decode c).instr? = none ↔
    c.toNat / 2 ^ 28 = 0 ∨ 9 ≤ c.toNat / 2 ^ 28 ∨
    ((c.toNat / 2 ^ 28 = 1 ∨ c.toNat / 2 ^ 28 = 6) ∧ c.toNat % 2 ^ 28 ≠ 0) ∨
    ((c.toNat / 2 ^ 28 = 2 ∨ c.toNat / 2 ^ 28 = 5) ∧ 2 ^ 3 ≤ c.toNat % 2 ^ 28) ∨
    ((c.toNat / 2 ^ 28 = 3 ∨ c.toNat / 2 ^ 28 = 4) ∧ 2 ^ 6 ≤ c.toNat % 2 ^ 28) ∨
    ((c.toNat / 2 ^ 28 = 7 ∨ c.toNat / 2 ^ 28 = 8) ∧ 2 ^ 2 ≤ c.toNat % 2 ^ 28)) ∧
  (∀ c : Word, (decode c).instr? = none ↔ ∀ row ∈ opcodeMap, row.spells c = false) ∧
  ((decode 0#32).instr? = none ∧ (decode 0xFFFFFFFF#32).instr? = none) ∧
  ∀ (r : Request) (e : Env) (s : State), (decode r.cmd).instr? = none →
    serve r e s = .next (refusedWith .errIllegal (s.present r e))

/-- Words written out from 30_encoding.md (vectors V1.1 to V1.36 of 95_test_vectors.md), one at least of each format. -/
def Obligations.WrittenOutWordsDecode : Prop :=
  decode 0x10000000#32 = .legal .rst ∧ decode 0x20000007#32 = .legal (.seedw 7) ∧
  decode 0x30000018#32 = .legal (.init 24) ∧ decode 0x40000021#32 = .legal (.nextbits 33) ∧
  decode 0x50000007#32 = .legal (.seedr 7) ∧ decode 0x60000000#32 = .legal .stat ∧
  decode 0x70000003#32 = .legal (.ctrr 3) ∧ decode 0x80000003#32 = .legal (.bufr 3) ∧
  decode 0x18000000#32 = .illegal (.reservedBits "RST") ∧
  decode 0x20000008#32 = .illegal (.reservedBits "SEEDW") ∧
  decode 0x90000000#32 = .illegal (.reservedOpcode 9)

/-- R81: `LOADSEED` expands, for a multiple of 4 bytes from 4 to 32, to the `SEEDW` commands of its words in order, and to
nothing else; no other number of bytes can be assembled; and the rule's example. -/
def Obligations.LoadseedExpandsToSeedwCommands : Prop :=
  (∀ bytes : List Byte, bytes.length % 4 = 0 → 4 ≤ bytes.length → bytes.length ≤ 32 →
    ∃ commands, assemble (.loadseed bytes) = some commands ∧ commands.length = bytes.length / 4 ∧
      ∀ k, k < bytes.length / 4 →
        commands[k]? = some ⟨encode (.seedw (BitVec.ofNat 3 k)),
          packLanes (bytes.getD (4 * k) 0) (bytes.getD (4 * k + 1) 0)
            (bytes.getD (4 * k + 2) 0) (bytes.getD (4 * k + 3) 0)⟩) ∧
  (∀ bytes : List Byte, ¬(bytes.length % 4 = 0 ∧ 4 ≤ bytes.length ∧ bytes.length ≤ 32) →
    assemble (.loadseed bytes) = none) ∧
  assemble (.loadseed [0x10, 0x11, 0x12, 0x13, 0x14, 0x15, 0x16, 0x17]) =
    some [⟨0x20000000#32, 0x13121110#32⟩, ⟨0x20000001#32, 0x17161514#32⟩]

/-- 30_encoding.md section 5: a listing line assembles exactly when its operand is inside its range, and to the word the
table gives, with `wdata` the data of `SEEDW` and 0 elsewhere; `RST`, `STAT` and `.word c` always assemble; every command
is the line that spells it. -/
def Obligations.AssemblerKeepsOperandRanges : Prop :=
  (∀ (k : Nat) (d : Word), assemble (.seedw k d) =
    if k < 8 then some [⟨BitVec.ofNat 32 (0x20000000 + k), d⟩] else none) ∧
  (∀ n : Nat, assemble (.init n) =
    if n < 64 then some [⟨BitVec.ofNat 32 (0x30000000 + n), 0⟩] else none) ∧
  (∀ w : Nat, assemble (.nextbits w) =
    if w < 64 then some [⟨BitVec.ofNat 32 (0x40000000 + w), 0⟩] else none) ∧
  (∀ k : Nat, assemble (.seedr k) =
    if k < 8 then some [⟨BitVec.ofNat 32 (0x50000000 + k), 0⟩] else none) ∧
  (∀ k : Nat, assemble (.ctrr k) =
    if k < 4 then some [⟨BitVec.ofNat 32 (0x70000000 + k), 0⟩] else none) ∧
  (∀ k : Nat, assemble (.bufr k) =
    if k < 4 then some [⟨BitVec.ofNat 32 (0x80000000 + k), 0⟩] else none) ∧
  (assemble .rst = some [⟨0x10000000#32, 0⟩] ∧ assemble .stat = some [⟨0x60000000#32, 0⟩]) ∧
  (∀ c : Word, assemble (.word c) = some [⟨c, 0⟩]) ∧
  ∀ (i : Instr) (d : Word), ∃ c, assemble (i.toAsm d) = some [c] ∧ decode c.cmd = .legal i

/-- 30_encoding.md R70, "Every other command ignores `wdata` entirely": two requests that differ in `wdata` alone, no
`SEEDW`, leave the same engine and the same response. -/
def Obligations.OnlySeedwReadsTheOperandWord : Prop :=
  ∀ (r : Request) (d : Word) (e : Env) (s : State), (∀ k, decode r.cmd ≠ .legal (.seedw k)) →
    ∃ t u, serve r e s = .next t ∧ serve { r with wdata := d } e s = .next u ∧
      t.engine = u.engine ∧ t.response = u.response ∧ t.cipherLog = u.cipherLog

-- Byte orders (20_memory.md)

/-- R54: the word of `SEEDW`, `SEEDR`, `CTRR` and `BUFR` carries byte `4k+j` of the array in bits `[8j+7:8j]`; `CTRR k` is
bits `[32k+31:32k]` of the counter; `BUFR k` is the byte swap of the word a `NEXTBITS 32` extracts at `CUR = 4k`. -/
def Obligations.HostWordsUseLittleEndianLanes : Prop :=
  (∀ (k : BitVec 3) (s : State), ∃ t, exec (.seedw k) s = .next t ∧
    ∀ i : Fin 32, i.val / 4 = k.toNat → t.engine.seedin[i] = s.request.wdata.extractLsb' (8 * (i.val % 4)) 8) ∧
  (∀ (k : BitVec 3) (s : State), s.engine.state ≠ .uninit → k.toNat < s.engine.klen.toNat / 4 →
    ∃ t v, exec (.seedr k) s = .next t ∧ t.response = some ⟨s.request.host, .ok, v⟩ ∧
      ∀ i : Fin 32, i.val / 4 = k.toNat → v.extractLsb' (8 * (i.val % 4)) 8 = s.engine.seed[i]) ∧
  (∀ (k : BitVec 2) (s : State), ∃ t v, exec (.ctrr k) s = .next t ∧
    t.response = some ⟨s.request.host, .ok, v⟩ ∧
    (∀ i : Fin 16, i.val / 4 = k.toNat → v.extractLsb' (8 * (i.val % 4)) 8 = s.engine.ctr[i]) ∧
    v.toNat = le128 s.engine.ctr / 2 ^ (32 * k.toNat) % 2 ^ 32) ∧
  (∀ (k : BitVec 2) (s : State), ∃ t v, exec (.bufr k) s = .next t ∧
    t.response = some ⟨s.request.host, .ok, v⟩ ∧
    (∀ i : Fin 16, i.val / 4 = k.toNat → v.extractLsb' (8 * (i.val % 4)) 8 = s.engine.buf[i]) ∧
    (s.engine.state = .ready → s.engine.pop = true → s.engine.cur.toNat = 4 * k.toNat →
      ∃ u x, exec (.nextbits 32) s = .next u ∧ u.response = some ⟨s.request.host, .ok, x⟩ ∧
        ∀ j : Fin 4, x.extractLsb' (8 * (3 - j.val)) 8 = v.extractLsb' (8 * j.val) 8))

/-- 20_memory.md, Byte order, and the `bytes16` of 41_generation.md, Properties of the stream: the little-endian reading
of 16 bytes and its inverse, and the bytes of the values 1 and 256. -/
def Obligations.Bytes16InvertsLe128 : Prop :=
  (∀ m : Nat, le128 (bytes16 m) = m % 2 ^ 128) ∧ (∀ c : Block, bytes16 (le128 c) = c) ∧
  le128 #v[1, 0, 0, 0, 0, 0, 0, 0, 0, 0, 0, 0, 0, 0, 0, 0] = 1 ∧
  le128 #v[0, 1, 0, 0, 0, 0, 0, 0, 0, 0, 0, 0, 0, 0, 0, 0] = 256

-- Generation (41_generation.md)

/-- R112: the byte-wise form (byte `i` moves exactly when the carry runs through every byte below it), the integer form,
and that the wrap records nothing: the command that meets it answers `OK` and leaves `LASTERR` and `STATE`. -/
def Obligations.IncrementCounterAddsOne : Prop :=
  (∀ (a : Block) (i : Fin 16), (incrementCounter a)[i] =
    if ∀ j : Fin 16, j < i → a[j] = 255 then a[i] + 1 else a[i]) ∧
  (∀ c : Block, le128 (incrementCounter c) = (le128 c + 1) % 2 ^ 128) ∧
  (∀ (w : BitVec 6) (s : State), s.engine.state = .ready → w.toNat ≤ 32 →
    (s.engine.pop = false ∨ 13 ≤ s.engine.cur.toNat) → s.env.encOk = true →
    s.engine.ctr = Vector.replicate 16 255 →
    ∃ t v, exec (.nextbits w) s = .next t ∧ t.engine.ctr = Vector.replicate 16 0 ∧
      t.response = some ⟨s.request.host, .ok, v⟩ ∧ t.engine.lasterr = s.engine.lasterr ∧ t.engine.state = .ready)

/-- R111: a `NEXTBITS` in `READY` encrypts a block exactly when the buffer was never populated or fewer than 4 bytes
remain; in states that meet the invariant, exactly when `POP = 0` or `CUR = 16`. -/
def Obligations.NextbitsRefreshesExactlyWhenNeeded : Prop :=
  (∀ (pop : Bool) (cur : BitVec 5), refreshNeeded pop cur = true ↔ pop = false ∨ 13 ≤ cur.toNat) ∧
  (∀ (w : BitVec 6) (s : State), s.engine.state = .ready → w.toNat ≤ 32 →
    ∃ t, exec (.nextbits w) s = .next t ∧
      (s.engine.pop = false ∨ (16 : Int) - s.engine.cur.toNat < 4 →
        ∃ block ok, t.cipherLog = s.cipherLog ++ [.enc block ok]) ∧
      (¬(s.engine.pop = false ∨ (16 : Int) - s.engine.cur.toNat < 4) →
        t.cipherLog = s.cipherLog ∧ t.engine.ctr = s.engine.ctr ∧ t.engine.buf = s.engine.buf)) ∧
  (∀ s : State, MachineInv s → (refreshNeeded s.engine.pop s.engine.cur = true ↔
    s.engine.pop = false ∨ s.engine.cur = 16))

/-- 41_generation.md, NEXTBITS with enough bytes left: the big-endian word at the cursor, its top `w` bits returned, the
cursor advanced by 4, and nothing else changed. -/
def Obligations.NextbitsDeliversFromTheBuffer : Prop :=
  ∀ (w : BitVec 6) (s : State) (h : s.engine.cur.toNat ≤ 12), s.engine.state = .ready → w.toNat ≤ 32 →
    s.engine.pop = true →
    ∃ v : Word, v.toNat =
        (s.engine.buf[s.engine.cur.toNat].toNat * 2 ^ 24 + s.engine.buf[s.engine.cur.toNat + 1].toNat * 2 ^ 16 +
          s.engine.buf[s.engine.cur.toNat + 2].toNat * 2 ^ 8 + s.engine.buf[s.engine.cur.toNat + 3].toNat) /
          2 ^ (32 - w.toNat) ∧
      (s.engine.cur + 4).toNat = s.engine.cur.toNat + 4 ∧
      exec (.nextbits w) s = .next (answeredWith v
        { s with engine := { s.engine with cur := s.engine.cur + 4 } })

/-- 41_generation.md, NEXTBITS that refreshes and whose encryption succeeds: one `CipherEnc` of the incremented counter,
its block in the buffer, the word at offset 0 extracted, and nothing else changed. -/
def Obligations.NextbitsRefreshesThenDelivers : Prop :=
  ∀ (w : BitVec 6) (s : State), s.engine.state = .ready → w.toNat ≤ 32 →
    (s.engine.pop = false ∨ 13 ≤ s.engine.cur.toNat) → s.env.encOk = true →
    ∃ (c b : Block) (v : Word), le128 c = (le128 s.engine.ctr + 1) % 2 ^ 128 ∧
      b = Config.cipher s.engine.klen.toNat (s.engine.seed.toList.take s.engine.klen.toNat) c ∧
      v.toNat = (b[0].toNat * 2 ^ 24 + b[1].toNat * 2 ^ 16 + b[2].toNat * 2 ^ 8 + b[3].toNat) /
        2 ^ (32 - w.toNat) ∧
      exec (.nextbits w) s = .next (answeredWith v
        { s with
          engine := { s.engine with ctr := c, buf := b, cur := 4, pop := true }
          cipherLog := s.cipherLog ++ [.enc c true] })

/-- R118, R170: a width of 33 to 63 in `READY` is refused with `ERR_WIDTH` and changes nothing but `LASTERR`; the status
comes from nothing else; a width of 64 or more, as a word, is `ERR_ILLEGAL`. -/
def Obligations.NextbitsRefusesWideWidths : Prop :=
  (∀ (w : BitVec 6) (s : State), s.engine.state = .ready → 33 ≤ w.toNat →
    exec (.nextbits w) s = .next (refusedWith .errWidth s)) ∧
  (∀ (i : Instr) (s t : State) (v : Word), exec i s = .next t →
    t.response = some ⟨s.request.host, .errWidth, v⟩ →
    s.engine.state = .ready ∧ ∃ w, i = .nextbits w ∧ 33 ≤ w.toNat) ∧
  (∀ (r : Request) (e : Env) (s : State), r.cmd.toNat / 2 ^ 28 = 4 → 64 ≤ r.cmd.toNat % 2 ^ 28 →
    serve r e s = .next (refusedWith .errIllegal (s.present r e)))

/-- R121: `NEXTBITS` outside `READY`, whatever the width. -/
def Obligations.NextbitsOutsideReady : Prop :=
  (∀ (w : BitVec 6) (s : State), s.engine.state = .uninit →
    exec (.nextbits w) s = .next (refusedWith .errState s)) ∧
  (∀ (w : BitVec 6) (s : State), s.engine.state = .dead →
    exec (.nextbits w) s = .next (refusedWith .errGen s))

/-- R120: the cipher fails during a refresh: the increment stands, the buffer, cursor and `POP` stay, `STATE` is `DEAD`,
`LASTERR` and the response say `ERR_GEN`, and no bits are returned. -/
def Obligations.NextbitsCipherFailureEndsInstance : Prop :=
  ∀ (w : BitVec 6) (s : State), s.engine.state = .ready → w.toNat ≤ 32 →
    (s.engine.pop = false ∨ 13 ≤ s.engine.cur.toNat) → s.env.encOk = false →
    ∃ c : Block, le128 c = (le128 s.engine.ctr + 1) % 2 ^ 128 ∧
      exec (.nextbits w) s = .next
        { s with
          engine := { s.engine with ctr := c, state := .dead, lasterr := .errGen }
          response := some ⟨s.request.host, .errGen, 0⟩
          cipherLog := s.cipherLog ++ [.enc c false] }

/-- R116: `alignBits`, as a quotient and bit by bit, with the rule's examples. -/
def Obligations.AlignBitsTakesTheTopBits : Prop :=
  (∀ (word : Word) (w : Nat), w ≤ 32 → (alignBits word w).toNat = word.toNat / 2 ^ (32 - w)) ∧
  (∀ (word : Word) (w i : Nat), w ≤ 32 → (alignBits word w).getLsbD i =
    (decide (i < w) && word.getLsbD (32 - w + i))) ∧
  (∀ word : Word, alignBits word 32 = word ∧ alignBits word 0 = 0 ∧
    alignBits word 1 = (BitVec.ofBool word.msb).setWidth 32) ∧
  (alignBits 0xDEADBEEF#32 31 = 0x6F56DF77#32 ∧ alignBits 0xDEADBEEF#32 16 = 0xDEAD#32 ∧
    alignBits 0xDEADBEEF#32 8 = 0xDE#32 ∧ alignBits 0xDEADBEEF#32 4 = 0xD#32)

/-- R119: "For every accepted `w`, `0 <= rdata <= 2^w - 1`." -/
def Obligations.NextbitsResultInRange : Prop :=
  ∀ (w : BitVec 6) (s t : State) (v : Word), exec (.nextbits w) s = .next t →
    t.response = some ⟨s.request.host, .ok, v⟩ → w.toNat ≤ 32 ∧ v.toNat ≤ 2 ^ w.toNat - 1

/-- R117: `NEXTBITS 0` is accepted, executes as every other accepted width does (the same engine, the same cipher
transactions, the same status), and returns 0. -/
def Obligations.WidthZeroConsumesAndReturnsZero : Prop :=
  ∀ (w : BitVec 6) (s : State), w.toNat ≤ 32 →
    ∃ t u st x, exec (.nextbits 0) s = .next t ∧ exec (.nextbits w) s = .next u ∧
      t.engine = u.engine ∧ t.cipherLog = u.cipherLog ∧
      t.response = some ⟨s.request.host, st, 0⟩ ∧ u.response = some ⟨s.request.host, st, x⟩ ∧
      (s.engine.state = .ready → s.env.encOk = true → st = .ok)

/-- R169: when a command answers `ERR_GEN`, and what each occurrence does; a `NEXTBITS` in `READY` that needs no refresh
never does and issues no cipher transaction, whatever `enc_ok` is. -/
def Obligations.GenerationErrorExactlyWhen : Prop :=
  (∀ (i : Instr) (s t : State), exec i s = .next t →
    (t.response = some ⟨s.request.host, .errGen, 0⟩ ↔ ∃ w, i = .nextbits w ∧
      (s.engine.state = .dead ∨ (s.engine.state = .ready ∧ w.toNat ≤ 32 ∧
        (s.engine.pop = false ∨ 13 ≤ s.engine.cur.toNat) ∧ s.env.encOk = false)))) ∧
  (∀ (w : BitVec 6) (s t : State), exec (.nextbits w) s = .next t →
    t.response = some ⟨s.request.host, .errGen, 0⟩ →
    (s.engine.state = .dead → t = refusedWith .errGen s) ∧
    (s.engine.state = .ready → t.engine.state = .dead ∧
      le128 t.engine.ctr = (le128 s.engine.ctr + 1) % 2 ^ 128)) ∧
  (∀ (w : BitVec 6) (s : State), s.engine.state = .ready → w.toNat ≤ 32 → s.engine.pop = true →
    s.engine.cur.toNat ≤ 12 →
    ∃ t v, exec (.nextbits w) s = .next t ∧ t.response = some ⟨s.request.host, .ok, v⟩ ∧
      t.cipherLog = s.cipherLog)

/-- R131: the first `NEXTBITS` after an `INIT` encrypts the counter value 1 and returns the first word of that block; the
value 0 is encrypted only when the counter wraps. -/
def Obligations.FirstBlockEncryptsCounterOne : Prop :=
  (∀ (n w : BitVec 6) (s t : State), exec (.init n) s = .next t →
    t.response = some ⟨s.request.host, .ok, 0⟩ → s.env.encOk = true → w.toNat ≤ 32 →
    ∃ (u : State) (b : Block), exec (.nextbits w) t = .next u ∧
      b = Config.cipher n.toNat (s.engine.seedin.toList.take n.toNat)
        #v[1, 0, 0, 0, 0, 0, 0, 0, 0, 0, 0, 0, 0, 0, 0, 0] ∧
      u.engine.buf = b ∧
      u.response = some ⟨s.request.host, .ok, (be32 b[0] b[1] b[2] b[3]) >>> (32 - w.toNat)⟩) ∧
  (∀ (w : BitVec 6) (s t : State) (b : Block) (ok : Bool), exec (.nextbits w) s = .next t →
    t.cipherLog = s.cipherLog ++ [.enc b ok] → le128 b = 0 → le128 s.engine.ctr = 2 ^ 128 - 1)

/-- R132: the keystream of an instance in closed form, over a run of any commands without `RST` from a fresh instance:
the `j`-th successful `NEXTBITS` returns the top bits of word `j mod 4` of the block of counter value
`floor(j/4) + 1`, whatever stands between; and where the counter and the cursor then are. -/
def Obligations.KeystreamInClosedForm : Prop :=
  ∀ (s : State) (requests : List (Request × Env)), s.engine.state = .ready → s.engine.pop = false →
    s.engine.cur = 0 → le128 s.engine.ctr = 0 → (∀ x ∈ requests, isRst x.1 = false) →
    ∃ answers t, serveAll requests s = some (answers, t) ∧
      (∀ (j : Nat) (x : (Request × Env) × Response),
        (successfulNextbits requests answers)[j]? = some x →
        x.2.rdata = streamWord Config.cipher s.engine (4 + j) >>> (32 - (val6Field x.1.1.cmd).toNat)) ∧
      (∀ n : Nat, (successfulNextbits requests answers).length = n + 1 → t.engine.state = .ready →
        le128 t.engine.ctr = (n / 4 + 1) % 2 ^ 128 ∧ t.engine.cur.toNat = 4 * (n % 4) + 4)

/-- R144: whatever commands but `RST` stand between the `NEXTBITS` of an instance (`SEEDW`, the read-out commands, a
refused `INIT`, illegal words), the `NEXTBITS` responses are those of the run without them. -/
def Obligations.OtherCommandsLeaveTheStream : Prop :=
  ∀ (s : State) (requests : List (Request × Env)), s.engine.state ≠ .uninit →
    (∀ x ∈ requests, isRst x.1 = false) →
    ∃ answers t u, serveAll requests s = some (answers, t) ∧
      serveAll (requests.filter isNextbits) s = some (nextbitsAnswers requests answers, u) ∧
      t.engine.seed = s.engine.seed ∧ t.engine.klen = s.engine.klen

/-- 41_generation.md, Determinism: what follows an `RST` does not depend on the engine's history before it. -/
def Obligations.ResetForgetsTheHistory : Prop :=
  ∀ (r : Request) (e : Env) (requests : List (Request × Env)) (s₁ s₂ : State), isRst r = true →
    ∃ answers t₁ t₂, serveAll ((r, e) :: requests) s₁ = some (answers, t₁) ∧
      serveAll ((r, e) :: requests) s₂ = some (answers, t₂) ∧ t₁.engine = t₂.engine

/-- 70_reset_and_hazards.md, the concurrent-access property: hosts that each have `k` commands `NEXTBITS 32` to issue and nothing else, an engine in `READY`, every draw
`enc_ok` true, any choices of the arbiter: as many steps as there are commands serve them all; the response of step `j`,
so of the `j`-th granted command, is word `j` of the single-host sequence continued from the current position; each host
received its own `k` of them, in order; and the counter advanced by the number of refreshes those words need. That hosts
issue eagerly, and that one step issues, grants, executes and delivers one command, is the model's choice (log entry 4). -/
def Obligations.SharedStreamHasNoGapsOrRepeats : Prop :=
  ∀ (s : State) (k n : Nat), MachineInv s → s.engine.state = .ready → n = s.hosts.length * k →
    (∀ p ∈ s.hosts, p.outstanding = none ∧ p.program = List.replicate k nextbits32) →
    n ≤ s.inputs.length → (∀ i ∈ s.inputs, i.hardReset = false ∧ i.env.encOk = true) →
    ∃ (answers : List Response) (t : State), Sys2Proof.core.run n s = .next t ∧ answers.length = n ∧
      (∀ j, j < n → ∃ u : State, Sys2Proof.core.run (j + 1) s = .next u ∧ u.response = answers[j]?) ∧
      (∀ (j : Nat) (a : Response), answers[j]? = some a →
        a.status = .ok ∧ a.rdata = streamWord Config.cipher s.engine (consumedWords s.engine + j)) ∧
      (∀ (h : Nat) (p : HostPort), s.hosts[h]? = some p → ∃ q, t.hosts[h]? = some q ∧
        q.received = p.received ++ answers.filter (fun a => decide (a.host = h)) ∧
        q.received.length = p.received.length + k ∧ q.outstanding = none ∧ q.program = []) ∧
      le128 t.engine.ctr = (le128 s.engine.ctr + (consumedWords s.engine + n - 1) / 4) % 2 ^ 128

-- Construction (40_lifecycle.md)

/-- R90: `RST` in every state, its malformed words, and that nothing else leaves `READY` and `DEAD` for `UNINIT`. -/
def Obligations.RstRestoresTheResetState : Prop :=
  (∀ s : State, exec .rst s = .next
    { s with
      engine :=
        { state := .uninit, seedin := Vector.replicate 32 0, sval := 0, seed := Vector.replicate 32 0, klen := 0,
          ctr := Vector.replicate 16 0, buf := Vector.replicate 16 0, cur := 0, pop := false, lasterr := .ok }
      response := some ⟨s.request.host, .ok, 0⟩ }) ∧
  (∀ (r : Request) (e : Env) (s : State), r.cmd.toNat / 2 ^ 28 = 1 →
    (r.cmd.toNat % 2 ^ 28 = 0 → serve r e s = exec .rst (s.present r e)) ∧
    (r.cmd.toNat % 2 ^ 28 ≠ 0 → serve r e s = .next (refusedWith .errIllegal (s.present r e)))) ∧
  (∀ (r : Request) (e : Env) (s t : State), serve r e s = .next t → s.engine.state ≠ .uninit →
    t.engine.state = .uninit → isRst r = true)

/-- 40_lifecycle.md, SEEDW, in every state: byte `4k+j` of the staging area takes bits `[8j+7:8j]` of `wdata`, `SVAL[k]`
is set, no other byte, bit or element changes, and the response is `OK 0`. -/
def Obligations.SeedwWritesTheStagingAreaOnly : Prop :=
  ∀ (k : BitVec 3) (s : State), ∃ t, exec (.seedw k) s = .next t ∧
    (∀ i : Fin 32, t.engine.seedin[i] =
      if i.val / 4 = k.toNat then s.request.wdata.extractLsb' (8 * (i.val % 4)) 8 else s.engine.seedin[i]) ∧
    (∀ j : Nat, j < 8 → t.engine.sval.getLsbD j = (s.engine.sval.getLsbD j || decide (j = k.toNat))) ∧
    t = { s with
      engine := { s.engine with seedin := t.engine.seedin, sval := t.engine.sval }
      response := some ⟨s.request.host, .ok, 0⟩ }

/-- 40_lifecycle.md, INIT that succeeds: the seed captured and zero above it, counter, buffer, cursor and `POP` zero,
`STATE` `READY`, one `CipherKey` of the staged key, and nothing else changed. -/
def Obligations.InitConstructsTheInstance : Prop :=
  ∀ (n : BitVec 6) (s : State), s.engine.state = .uninit → (n = 16 ∨ n = 24 ∨ n = 32) →
    (∀ k : Fin 8, k.val < n.toNat / 4 → s.engine.sval.getLsbD k.val = true) → s.env.kinitOk = true →
    ∃ seed : Bytes 32, (∀ i : Fin 32, seed[i] = if i.val < n.toNat then s.engine.seedin[i] else 0) ∧
      exec (.init n) s = .next
        { s with
          engine := { s.engine with
            seed := seed, klen := n, ctr := Vector.replicate 16 0, buf := Vector.replicate 16 0, cur := 0,
            pop := false, state := .ready }
          response := some ⟨s.request.host, .ok, 0⟩
          cipherLog := s.cipherLog ++ [.key n.toNat (s.engine.seedin.toList.take n.toNat) true] }

/-- R93, R167: `INIT` in `UNINIT` answers `ERR_SEED` exactly on a wrong length or an absent word `k < n/4`, so neither
the content of the seed nor a word `k >= n/4` is a ground; it asks the cipher core nothing and changes nothing but
`LASTERR`; and a legal length the cipher core refuses is `ERR_CIPHER_INIT`. -/
def Obligations.InitValidatesTheSeed : Prop :=
  (∀ (n : BitVec 6) (s : State), s.engine.state = .uninit →
    ¬((n = 16 ∨ n = 24 ∨ n = 32) ∧ ∀ k : Fin 8, k.val < n.toNat / 4 → s.engine.sval.getLsbD k.val = true) →
    exec (.init n) s = .next (refusedWith .errSeed s)) ∧
  (∀ (i : Instr) (s t : State) (v : Word), exec i s = .next t →
    t.response = some ⟨s.request.host, .errSeed, v⟩ → s.engine.state = .uninit ∧ ∃ n, i = .init n ∧
      ((n ≠ 16 ∧ n ≠ 24 ∧ n ≠ 32) ∨ ∃ k : Fin 8, k.val < n.toNat / 4 ∧ s.engine.sval.getLsbD k.val = false)) ∧
  (∀ (n : BitVec 6) (s : State), s.engine.state = .uninit → (n = 16 ∨ n = 24 ∨ n = 32) →
    (∀ k : Fin 8, k.val < n.toNat / 4 → s.engine.sval.getLsbD k.val = true) → s.env.kinitOk = false →
    ∃ t, exec (.init n) s = .next t ∧ t.response = some ⟨s.request.host, .errCipherInit, 0⟩)

/-- R168: `ERR_CIPHER_INIT` is raised exactly when an `INIT` passed the state and seed checks and `kinit_ok` is false; it
changes nothing but `LASTERR` (and the record of the transaction). -/
def Obligations.CipherRefusalChangesOnlyLasterr : Prop :=
  ∀ (i : Instr) (s : State), ∃ t, exec i s = .next t ∧
    (t.response = some ⟨s.request.host, .errCipherInit, 0⟩ ↔ ∃ n, i = .init n ∧ s.engine.state = .uninit ∧
      (n = 16 ∨ n = 24 ∨ n = 32) ∧ (∀ k : Fin 8, k.val < n.toNat / 4 → s.engine.sval.getLsbD k.val = true) ∧
      s.env.kinitOk = false) ∧
    (t.response = some ⟨s.request.host, .errCipherInit, 0⟩ → t.engine = withLasterr .errCipherInit s.engine)

/-- R95: an `INIT` that answers an error leaves the engine as it was, except `LASTERR`; and after `ERR_SEED` or
`ERR_CIPHER_INIT` the same `INIT` with a cipher core that accepts answers as it would have before. -/
def Obligations.FailedInitConstructsNothing : Prop :=
  ∀ (n : BitVec 6) (s : State), ∃ t st, exec (.init n) s = .next t ∧
    t.response = some ⟨s.request.host, st, 0⟩ ∧
    (st = .ok ∨ ((st = .errState ∨ st = .errSeed ∨ st = .errCipherInit) ∧ t.engine = withLasterr st s.engine ∧
      ∀ (m : BitVec 6) (r : Request) (e : Env), r.cmd = encode (.init m) → ∃ u x,
        serve r e s = .next u ∧ serve r e t = .next x ∧ u.response = x.response))

/-- R96: in `READY` and `DEAD` a well-formed `INIT` is refused with `ERR_STATE` and no effect, and no word but a
well-formed `RST` changes `SEED` or `KLEN` or loads a key. -/
def Obligations.SeedAndKeyLastTheInstance : Prop :=
  (∀ (n : BitVec 6) (s : State), s.engine.state ≠ .uninit →
    exec (.init n) s = .next (refusedWith .errState s)) ∧
  (∀ (r : Request) (e : Env) (s : State), s.engine.state ≠ .uninit → isRst r = false →
    ∃ t, serve r e s = .next t ∧ t.engine.seed = s.engine.seed ∧ t.engine.klen = s.engine.klen ∧
      t.engine.state ≠ .uninit ∧
      ∀ n bytes ok, t.cipherLog ≠ s.cipherLog ++ [.key n bytes ok])

/-- R97: the table of the three-state machine is complete: reset and `RST` to `UNINIT`, a successful `INIT` to `READY`, an
`ERR_GEN` of a `NEXTBITS` in `READY` to `DEAD`; everything else keeps `STATE`. -/
def Obligations.LifeCycleTableIsComplete : Prop :=
  (∀ s : State, (nextInput s).hardReset = true → ∃ t, step s = .next t ∧ t.engine.state = .uninit) ∧
  (∀ (r : Request) (e : Env) (s : State), ∃ t st v, serve r e s = .next t ∧
    t.response = some ⟨r.host, st, v⟩ ∧
    ((∃ n, decode r.cmd = .legal (.init n) ∧ s.engine.state = .uninit ∧ st = .ok ∧ t.engine.state = .ready) ∨
      (decode r.cmd = .legal .rst ∧ t.engine.state = .uninit) ∨
      (∃ w, decode r.cmd = .legal (.nextbits w) ∧ s.engine.state = .ready ∧ st = .errGen ∧
        t.engine.state = .dead) ∨
      (t.engine.state = s.engine.state ∧ decode r.cmd ≠ .legal .rst ∧
        ¬(∃ n, decode r.cmd = .legal (.init n) ∧ st = .ok) ∧
        ¬(s.engine.state = .ready ∧ st = .errGen))))

/-- R35: after a hardware reset, and identically after a well-formed `RST`, every element has its reset value, and
`State.reset` has the same. -/
def Obligations.HardwareResetGivesTheResetValues : Prop :=
  ∃ e : Engine,
    (e.state = .uninit ∧ (∀ i : Fin 32, e.seedin[i] = 0) ∧ e.sval = 0 ∧ (∀ i : Fin 32, e.seed[i] = 0) ∧
      e.klen = 0 ∧ le128 e.ctr = 0 ∧ (∀ i : Fin 16, e.buf[i] = 0) ∧ e.cur = 0 ∧ e.pop = false ∧
      e.lasterr.code = 0) ∧
    State.reset.engine = e ∧
    (∀ s : State, (nextInput s).hardReset = true → ∃ t, step s = .next t ∧ t.engine = e) ∧
    (∀ s : State, ∃ t, exec .rst s = .next t ∧ t.engine = e)

/-- 70_reset_and_hazards.md, Reset: a hardware reset has no response and issues no cipher transaction. That the hosts keep
what they received and what they have still to be served is the model's choice (log entry 8). -/
def Obligations.HardwareResetLeavesTheHosts : Prop :=
  ∀ s : State, (nextInput s).hardReset = true → ∃ t, step s = .next t ∧ t.response = none ∧
    t.cipherLog = s.cipherLog ∧
    ∀ (h : Nat) (p : HostPort), s.hosts[h]? = some p →
      ∃ q, t.hosts[h]? = some q ∧ q.received = p.received ∧ todo q = todo p

-- Read-out (42_readout.md)

/-- R140, R171: `SEEDR` by cases, its malformed words, and that no other command answers `ERR_INDEX`. -/
def Obligations.SeedrReadsTheCapturedSeed : Prop :=
  (∀ (k : BitVec 3) (s : State), s.engine.state = .uninit →
    exec (.seedr k) s = .next (refusedWith .errState s)) ∧
  (∀ (k : BitVec 3) (s : State), s.engine.state ≠ .uninit → s.engine.klen.toNat / 4 ≤ k.toNat →
    exec (.seedr k) s = .next (refusedWith .errIndex s)) ∧
  (∀ (k : BitVec 3) (s : State), s.engine.state ≠ .uninit → k.toNat < s.engine.klen.toNat / 4 →
    ∃ v : Word, exec (.seedr k) s = .next (answeredWith v s) ∧
      ∀ i : Fin 32, i.val / 4 = k.toNat → v.extractLsb' (8 * (i.val % 4)) 8 = s.engine.seed[i]) ∧
  (∀ (r : Request) (e : Env) (s : State), r.cmd.toNat / 2 ^ 28 = 5 → 2 ^ 3 ≤ r.cmd.toNat % 2 ^ 28 →
    serve r e s = .next (refusedWith .errIllegal (s.present r e))) ∧
  (∀ (i : Instr) (s t : State) (v : Word), exec i s = .next t →
    t.response = some ⟨s.request.host, .errIndex, v⟩ →
    (s.engine.state = .ready ∨ s.engine.state = .dead) ∧
      ∃ k, i = .seedr k ∧ s.engine.klen.toNat / 4 ≤ k.toNat)

/-- R32, R141: `STAT` in every state returns `OK` and the status word, whose fields stand at their bits, and changes
nothing; its malformed words; the worked example of R32. The codes in the fields `STATE` and `LASTERR` are those of
10_state.md, section 3, and of the table of status codes (60_exceptions.md, section 1). -/
def Obligations.StatReturnsTheStatusWord : Prop :=
  (∀ s : State, ∃ v : Word, exec .stat s = .next (answeredWith v s) ∧
    v.toNat = s.engine.state.code.toNat + 2 ^ 2 * s.engine.pop.toNat + 2 ^ 3 * s.engine.cur.toNat +
      2 ^ 8 * s.engine.lasterr.code.toNat + 2 ^ 12 * s.engine.klen.toNat + 2 ^ 18 * s.engine.sval.toNat) ∧
  (LifeState.code .uninit = 0 ∧ LifeState.code .ready = 1 ∧ LifeState.code .dead = 2) ∧
  (Status.code .ok = 0 ∧ Status.code .errIllegal = 1 ∧ Status.code .errState = 2 ∧ Status.code .errSeed = 3 ∧
    Status.code .errCipherInit = 4 ∧ Status.code .errGen = 5 ∧ Status.code .errWidth = 6 ∧
    Status.code .errIndex = 7) ∧
  (∀ (r : Request) (e : Env) (s : State), r.cmd.toNat / 2 ^ 28 = 6 → r.cmd.toNat % 2 ^ 28 ≠ 0 →
    serve r e s = .next (refusedWith .errIllegal (s.present r e))) ∧
  statWord { Engine.reset with state := .ready, pop := true, cur := 4, klen := 16, sval := 0x0F } = 0x003D0025#32

/-- R142: `CTRR` in every state returns its slice of the counter and changes nothing; 0 before the first refresh; its
malformed words. -/
def Obligations.CtrrReadsTheCounter : Prop :=
  (∀ (k : BitVec 2) (s : State), ∃ v : Word, exec (.ctrr k) s = .next (answeredWith v s) ∧
    (∀ i : Fin 16, i.val / 4 = k.toNat → v.extractLsb' (8 * (i.val % 4)) 8 = s.engine.ctr[i]) ∧
    v.toNat = le128 s.engine.ctr / 2 ^ (32 * k.toNat) % 2 ^ 32 ∧
    (MachineInv s → s.engine.state = .uninit ∨ (s.engine.state = .ready ∧ s.engine.pop = false) → v = 0)) ∧
  (∀ (r : Request) (e : Env) (s : State), r.cmd.toNat / 2 ^ 28 = 7 → 2 ^ 2 ≤ r.cmd.toNat % 2 ^ 28 →
    serve r e s = .next (refusedWith .errIllegal (s.present r e)))

/-- R143: `BUFR` in every state returns its word of the buffer and changes nothing, so `CUR` does not move; 0 while the
buffer was never populated; the byte swap of the big-endian word at that offset; its malformed words. -/
def Obligations.BufrReadsTheBuffer : Prop :=
  (∀ (k : BitVec 2) (s : State), ∃ v : Word, exec (.bufr k) s = .next (answeredWith v s) ∧
    (∀ i : Fin 16, i.val / 4 = k.toNat → v.extractLsb' (8 * (i.val % 4)) 8 = s.engine.buf[i]) ∧
    (MachineInv s → s.engine.pop = false → v = 0) ∧
    ∃ w : Word, readBufWord s.engine.buf (4 * k.toNat) = some w ∧
      ∀ j : Fin 4, w.extractLsb' (8 * (3 - j.val)) 8 = v.extractLsb' (8 * j.val) 8) ∧
  (∀ (r : Request) (e : Env) (s : State), r.cmd.toNat / 2 ^ 28 = 8 → 2 ^ 2 ≤ r.cmd.toNat % 2 ^ 28 →
    serve r e s = .next (refusedWith .errIllegal (s.present r e)))

/-- R145: a word with the opcode of a read-out command, well-formed or not, writes nothing but `LASTERR`, that only with
an error response, and issues no cipher transaction. -/
def Obligations.ReadoutNeverTouchesGeneration : Prop :=
  ∀ (r : Request) (e : Env) (s : State), 5 ≤ r.cmd.toNat / 2 ^ 28 → r.cmd.toNat / 2 ^ 28 ≤ 8 →
    ∃ t st v, serve r e s = .next t ∧ t.response = some ⟨r.host, st, v⟩ ∧ t.cipherLog = s.cipherLog ∧
      (st = .ok → t.engine = s.engine) ∧ (st ≠ .ok → t.engine = withLasterr st s.engine)

/-- R193: in `UNINIT`, `NEXTBITS` and `SEEDR` are answered `ERR_STATE`, `CTRR` and `BUFR` with zeros, and `STAT` with a
word whose fields other than `SVAL` and `LASTERR` are 0. -/
def Obligations.BeforeInitNothingIsServed : Prop :=
  ∀ s : State, MachineInv s → s.engine.state = .uninit →
    (∀ w, exec (.nextbits w) s = .next (refusedWith .errState s)) ∧
    (∀ k, exec (.seedr k) s = .next (refusedWith .errState s)) ∧
    (∀ k, exec (.ctrr k) s = .next (answeredWith 0 s)) ∧
    (∀ k, exec (.bufr k) s = .next (answeredWith 0 s)) ∧
    ∃ v : Word, exec .stat s = .next (answeredWith v s) ∧
      v.toNat = 2 ^ 8 * s.engine.lasterr.code.toNat + 2 ^ 18 * s.engine.sval.toNat

-- Errors (60_exceptions.md)

/-- R164: the status of every response is the first that is not `OK` of decode, state, operand and execution, in that
order; a command refused at one of the first three issues no cipher transaction. -/
def Obligations.StatusFollowsTheCheckOrder : Prop :=
  ∀ (r : Request) (e : Env) (s : State), ∃ t v, serve r e s = .next t ∧
    t.response = some ⟨r.host, statusInOrder r.cmd e s.engine, v⟩ ∧
    (t.cipherLog ≠ s.cipherLog → ∃ i, decode r.cmd = .legal i ∧ admission i s.engine.state = .ok ∧
      operandCheck i s.engine = .ok)

/-- R166: the admissibility table: a command it does not admit is answered with its status and changes nothing but
`LASTERR`; one it admits is never answered `ERR_STATE`. -/
def Obligations.AdmissibilityTableHolds : Prop :=
  (∀ (i : Instr) (s : State), admission i s.engine.state ≠ .ok →
    exec i s = .next (refusedWith (admission i s.engine.state) s)) ∧
  (∀ (i : Instr) (s : State), admission i s.engine.state = .ok →
    ∃ t st v, exec i s = .next t ∧ t.response = some ⟨s.request.host, st, v⟩ ∧ st ≠ .errState)

/-- R163: an error response records its status in `LASTERR`; an `OK` response leaves it, except `RST`, which clears it. -/
def Obligations.LasterrRecordsTheLastError : Prop :=
  ∀ (r : Request) (e : Env) (s : State), ∃ t st v, serve r e s = .next t ∧
    t.response = some ⟨r.host, st, v⟩ ∧ (st ≠ .ok → t.engine.lasterr = st) ∧
    (st = .ok → isRst r = false → t.engine.lasterr = s.engine.lasterr) ∧
    (isRst r = true → st = .ok ∧ t.engine.lasterr = .ok)

/-- R162: an error response leaves the engine as it was but for `LASTERR`, and for the first `ERR_GEN` the pair `CTR`,
`STATE`; and a later command sees an error only through `LASTERR`, which only `STAT` shows, and `STATE`. -/
def Obligations.ErrorsArePrecise : Prop :=
  (∀ (r : Request) (e : Env) (s : State), ∃ t st v, serve r e s = .next t ∧
    t.response = some ⟨r.host, st, v⟩ ∧ (st ≠ .ok → t.engine = withLasterr st s.engine ∨
      (st = .errGen ∧ s.engine.state = .ready ∧
        t.engine = { s.engine with ctr := t.engine.ctr, state := .dead, lasterr := .errGen } ∧
        le128 t.engine.ctr = (le128 s.engine.ctr + 1) % 2 ^ 128))) ∧
  (∀ (r : Request) (e : Env) (s : State) (x : Status), decode r.cmd ≠ .legal .stat →
    ∃ t u y, serve r e s = .next t ∧ serve r e { s with engine := withLasterr x s.engine } = .next u ∧
      t.response = u.response ∧ u.engine = withLasterr y t.engine)

/-- R78: a response goes to the host of the request; its status is one of the eight codes; `rdata` is 0 unless the status
is `OK` and the command returns data. -/
def Obligations.ResponsesCarryDataOnlyWhenOk : Prop :=
  ∀ (r : Request) (e : Env) (s : State), ∃ t st v, serve r e s = .next t ∧
    t.response = some ⟨r.host, st, v⟩ ∧ st.code.toNat ≤ 7 ∧ (st.code = 0 ↔ st = .ok) ∧
    (v ≠ 0 → st = .ok ∧ ∃ i, decode r.cmd = .legal i ∧ returnsData i = true)

-- The cipher port (20_memory.md, section 4)

/-- R209 (the transactions are read off the model's record, log entry 7): every command completes in one step, and issues at most one cipher transaction: `CipherKey` for an `INIT`,
`CipherEnc` for a `NEXTBITS` that refreshes, none otherwise. -/
def Obligations.AtMostOneCipherTransaction : Prop :=
  ∀ (r : Request) (e : Env) (s : State), ∃ t, serve r e s = .next t ∧
    (t.cipherLog = s.cipherLog ∨
      (∃ n m bytes ok, decode r.cmd = .legal (.init n) ∧ t.cipherLog = s.cipherLog ++ [.key m bytes ok]) ∨
      (∃ w block ok, decode r.cmd = .legal (.nextbits w) ∧
        (s.engine.pop = false ∨ 13 ≤ s.engine.cur.toNat) ∧ t.cipherLog = s.cipherLog ++ [.enc block ok]))

/-- R61: `CipherKey` is issued exactly once by each `INIT` that passes the state check and seed validation, with the
length and the staged bytes, answered by `kinit_ok`; and by nothing else. -/
def Obligations.CipherKeyOncePerValidatedInit : Prop :=
  (∀ (n : BitVec 6) (s : State), s.engine.state = .uninit → (n = 16 ∨ n = 24 ∨ n = 32) →
    (∀ k : Fin 8, k.val < n.toNat / 4 → s.engine.sval.getLsbD k.val = true) →
    ∃ t, exec (.init n) s = .next t ∧
      t.cipherLog = s.cipherLog ++ [.key n.toNat (s.engine.seedin.toList.take n.toNat) s.env.kinitOk] ∧
      (t.engine.state = .ready ↔ s.env.kinitOk = true)) ∧
  (∀ (i : Instr) (s t : State) (m : Nat) (bytes : List Byte) (ok : Bool), exec i s = .next t →
    t.cipherLog = s.cipherLog ++ [.key m bytes ok] → ∃ n, i = .init n ∧ m = n.toNat ∧
      s.engine.state = .uninit ∧ (n = 16 ∨ n = 24 ∨ n = 32) ∧
      ∀ k : Fin 8, k.val < n.toNat / 4 → s.engine.sval.getLsbD k.val = true)

/-- R62: `CipherEnc` is issued exactly once by each refresh, with the incremented counter, answered by `enc_ok`; its
ciphertext is `E` of the captured seed and becomes the buffer; and it is issued by nothing else, so only in `READY`. -/
def Obligations.CipherEncOncePerRefresh : Prop :=
  (∀ (w : BitVec 6) (s : State), s.engine.state = .ready → w.toNat ≤ 32 →
    (s.engine.pop = false ∨ 13 ≤ s.engine.cur.toNat) →
    ∃ t, exec (.nextbits w) s = .next t ∧ le128 t.engine.ctr = (le128 s.engine.ctr + 1) % 2 ^ 128 ∧
      t.cipherLog = s.cipherLog ++ [.enc t.engine.ctr s.env.encOk] ∧
      (s.env.encOk = true → t.engine.buf =
        Config.cipher s.engine.klen.toNat (s.engine.seed.toList.take s.engine.klen.toNat) t.engine.ctr) ∧
      (s.env.encOk = false → t.engine.buf = s.engine.buf)) ∧
  (∀ (i : Instr) (s t : State) (block : Block) (ok : Bool), exec i s = .next t →
    t.cipherLog = s.cipherLog ++ [.enc block ok] → s.engine.state = .ready ∧ ∃ w, i = .nextbits w ∧
      w.toNat ≤ 32 ∧ (s.engine.pop = false ∨ 13 ≤ s.engine.cur.toNat))

-- The whole machine (70_reset_and_hazards.md)

/-- 70_reset_and_hazards.md, the engine, "always can step when given" a request: every step answers a next state, no step
faults or is refused. Without a hardware reset: if no host has a command left, the step leaves the engine as it is and
gives no response (that it waits so is the model's choice, log entry 12); if some host has one, the step executes a command
and gives a response (that a command a host merely has left is issued, granted and executed in that very step is the
model's choice, log entry 4). -/
def Obligations.MachineAlwaysSteps : Prop :=
  ∀ s : State, ∃ t, step s = .next t ∧
    ((nextInput s).hardReset = false →
      ((∀ p ∈ s.hosts, todo p = []) → t.engine = s.engine ∧ t.response = none ∧ t.cipherLog = s.cipherLog) ∧
      ((∃ p ∈ s.hosts, todo p ≠ []) → t.response ≠ none))

/-- 00_scope.md, The step, and 70_reset_and_hazards.md, Agents: when the word the arbiter grants decodes to a command, a
step is that command's meaning on the state with the request and its draws on the port, with the response then delivered
to its host; and an illegal word is answered in the same way. That issuing, granting, executing and delivering are one step
is the model's choice (log entry 4). -/
def Obligations.StepRunsTheDecodedCommand : Prop :=
  ∀ (s : State) (h : Nat) (c : Command), (nextInput s).hardReset = false →
    arbitrate (nextInput s).grant (beginStep s).hosts = some (h, c) →
    (∀ i, decode c.cmd = .legal i →
      step s = onNext deliver (exec i ((beginStep s).present ⟨h, c.cmd, c.wdata⟩ (nextInput s).env))) ∧
    ((decode c.cmd).instr? = none →
      step s = .next (deliver (refusedWith .errIllegal
        ((beginStep s).present ⟨h, c.cmd, c.wdata⟩ (nextInput s).env))))

/-- 20_memory.md, Program order and arbitration, and 70_reset_and_hazards.md, the arbiter: a step without a hardware reset
and with some command left serves exactly one host: the first command of what it has to issue is gone and one response,
its own, is added to what it received; every other host keeps its commands, in order, and its responses. That issuing and
delivering are part of the step is the model's choice (log entry 4). -/
def Obligations.OneCommandOfOneHostPerStep : Prop :=
  ∀ s : State, (nextInput s).hardReset = false → (∃ p ∈ s.hosts, todo p ≠ []) →
    ∃ t h p c rest a, step s = .next t ∧ s.hosts[h]? = some p ∧ todo p = c :: rest ∧ a.host = h ∧
      t.request = ⟨h, c.cmd, c.wdata⟩ ∧ t.hosts.length = s.hosts.length ∧
      (∃ q, t.hosts[h]? = some q ∧ todo q = rest ∧ q.received = p.received ++ [a]) ∧
      ∀ j, j ≠ h → ∀ p', s.hosts[j]? = some p' →
        ∃ q, t.hosts[j]? = some q ∧ todo q = todo p' ∧ q.received = p'.received

/-- 70_reset_and_hazards.md, the arbiter: "any pending request may be picked": whichever host has a command left, some
input makes the next step execute its first one, and the draws are free beside it. The inputs are a list of the model's
(log entries 2 and 4). -/
def Obligations.AnyPendingRequestMayBeGranted : Prop :=
  ∀ (s : State) (h : Nat) (p : HostPort) (c : Command) (rest : List Command) (e : Env),
    s.hosts[h]? = some p → todo p = c :: rest →
    ∃ i : StepInput, i.env = e ∧
      step { s with inputs := i :: s.inputs } =
        onNext deliver (serve ⟨h, c.cmd, c.wdata⟩ e (beginStep { s with inputs := i :: s.inputs }))

/-- 00_scope.md, The step: "`host` is used for nothing but returning the response to its issuer": two requests that
differ in the host alone leave the same engine and responses that differ in the host alone. -/
def Obligations.HostNumberOnlyRoutesTheResponse : Prop :=
  ∀ (r : Request) (h : Nat) (e : Env) (s : State), ∃ t u st v, serve r e s = .next t ∧
    serve { r with host := h } e s = .next u ∧ t.engine = u.engine ∧ t.cipherLog = u.cipherLog ∧
    t.response = some ⟨r.host, st, v⟩ ∧ u.response = some ⟨h, st, v⟩

/-- 10_state.md, Registers as the host sees them, "`SEEDIN` is write-only": two states that differ in the content of the
staging area alone answer every command alike. -/
def Obligations.StagingAreaIsUnreadable : Prop :=
  ∀ (r : Request) (e : Env) (s : State) (a : Bytes 32), ∃ t u, serve r e s = .next t ∧
    serve r e { s with engine := { s.engine with seedin := a } } = .next u ∧ t.response = u.response

/-- 10_state.md, Invariants of every reachable state: every step of the machine, a hardware reset among them, keeps them,
for every draw and every choice. The refreshes are counted over the model's record of the cipher port (log entry 7). -/
def Obligations.EveryStepKeepsTheEngineInvariants : Prop :=
  ∀ s t : State, MachineInv s → step s = .next t → MachineInv t

/-- 10_state.md, Invariants of every reachable state: the state after reset meets them, with any
number of hosts. What it holds beside the engine is the model's choice (log entries 5 and 6). -/
def Obligations.ResetMeetsTheEngineInvariants : Prop := ∀ n : Nat, MachineInv (State.resetFor n)
end

