-- ==== Sys2Proof/Laws/Operands.lean ====
section
/-! SUPPORT. Byte by byte, what the word views and the byte orders of Machine/Operands.lean give. -/

namespace Sys2Proof.Machine

/-- A written word of a 32-byte array: its four bytes are the word's lanes, the other bytes stay (R54, R91). -/
theorem setSeedWord_get (a : Bytes 32) (k : BitVec 3) (w : Word) (i : Nat) (h : i < 32) :
    (setSeedWord a k w)[i] = if i / 4 = k.toNat then lane w (i % 4) else a[i] := by
  simp only [setSeedWord, Vector.getElem_set]
  have hk : k.toNat < 8 := k.isLt
  by_cases hq : i / 4 = k.toNat
  · have hr : i % 4 = 0 ∨ i % 4 = 1 ∨ i % 4 = 2 ∨ i % 4 = 3 := by omega
    have hi : i = 4 * k.toNat + i % 4 := by omega
    rcases hr with hr | hr | hr | hr <;> rw [hr] at hi ⊢ <;> simp only [hi] <;> (split_ifs <;> first | rfl | omega)
  · simp only [hq, if_false]
    split_ifs <;> first | rfl | omega

/-- The captured bytes: the first `n` as staged, 0 above (R92). -/
theorem captureBytes_get (a : Bytes 32) (n i : Nat) (h : i < 32) :
    (captureBytes a n)[i] = if i < n then a[i] else 0 := by
  simp [captureBytes]

/-- A read of four bytes that stays inside the buffer gives their big-endian word (R52, R53). -/
theorem readBufWord_inside (buf : Block) (addr : Nat) (h : addr + 4 ≤ 16) : readBufWord buf addr =
    some (be32 buf[addr] buf[addr + 1] buf[addr + 2] buf[addr + 3]) := by
  simp [readBufWord, h]

/-- `BE32` as a sum (R9). -/
theorem be32_toNat (b0 b1 b2 b3 : Byte) : (be32 b0 b1 b2 b3).toNat =
    b0.toNat * 2 ^ 24 + b1.toNat * 2 ^ 16 + b2.toNat * 2 ^ 8 + b3.toNat := by
  have h1 := b1.isLt; have h2 := b2.isLt; have h3 := b3.isLt
  simp only [be32, BitVec.toNat_append]
  rw [← Nat.shiftLeft_add_eq_or_of_lt h1, ← Nat.shiftLeft_add_eq_or_of_lt h2, ← Nat.shiftLeft_add_eq_or_of_lt h3]
  simp only [Nat.shiftLeft_eq]; omega

/-- `PACK` as a sum (R9). -/
theorem packLanes_toNat (b0 b1 b2 b3 : Byte) : (packLanes b0 b1 b2 b3).toNat =
    b0.toNat + b1.toNat * 2 ^ 8 + b2.toNat * 2 ^ 16 + b3.toNat * 2 ^ 24 := by
  have := be32_toNat b3 b2 b1 b0
  simp only [be32] at this
  simp only [packLanes]; omega

theorem littleEndian_lt (bs : List Byte) : littleEndian bs < 256 ^ bs.length := by
  induction bs with
  | nil => simp [littleEndian]
  | cons b bs ih =>
    have := b.isLt
    simp only [littleEndian, List.length_cons, Nat.pow_succ]; omega

/-- The value of a counter is below `2^128` (R26). -/
theorem le128_lt (a : Block) : le128 a < 2 ^ 128 := by
  have := littleEndian_lt a.toList
  simpa [le128] using this

end Sys2Proof.Machine
end

