-- ==== Sys2Proof/Laws/State.lean ====
section
/-! SUPPORT. Field by field, what the named updates of the state leave. -/

namespace Sys2Proof.Machine

@[simp] theorem State.withEngine_engine (e : Engine) (s : State) : (s.withEngine e).engine = e := rfl
@[simp] theorem State.withEngine_request (e : Engine) (s : State) : (s.withEngine e).request = s.request := rfl
@[simp] theorem State.withEngine_env (e : Engine) (s : State) : (s.withEngine e).env = s.env := rfl
@[simp] theorem State.withEngine_response (e : Engine) (s : State) : (s.withEngine e).response = s.response := rfl
@[simp] theorem State.withEngine_cipherLog (e : Engine) (s : State) : (s.withEngine e).cipherLog = s.cipherLog := rfl
@[simp] theorem State.withEngine_hosts (e : Engine) (s : State) : (s.withEngine e).hosts = s.hosts := rfl
@[simp] theorem State.withEngine_inputs (e : Engine) (s : State) : (s.withEngine e).inputs = s.inputs := rfl
@[simp] theorem State.withEngine_tick (e : Engine) (s : State) : (s.withEngine e).tick = s.tick := rfl

@[simp] theorem State.answer_engine (st : Status) (v : Word) (s : State) : (s.answer st v).engine = s.engine := rfl
@[simp] theorem State.answer_request (st : Status) (v : Word) (s : State) : (s.answer st v).request = s.request := rfl
@[simp] theorem State.answer_env (st : Status) (v : Word) (s : State) : (s.answer st v).env = s.env := rfl
@[simp] theorem State.answer_response (st : Status) (v : Word) (s : State) :
    (s.answer st v).response = some ⟨s.request.host, st, v⟩ := rfl
@[simp] theorem State.answer_cipherLog (st : Status) (v : Word) (s : State) :
    (s.answer st v).cipherLog = s.cipherLog := rfl
@[simp] theorem State.answer_hosts (st : Status) (v : Word) (s : State) : (s.answer st v).hosts = s.hosts := rfl
@[simp] theorem State.answer_inputs (st : Status) (v : Word) (s : State) : (s.answer st v).inputs = s.inputs := rfl
@[simp] theorem State.answer_tick (st : Status) (v : Word) (s : State) : (s.answer st v).tick = s.tick := rfl

@[simp] theorem State.logTxn_engine (t : CipherTxn) (s : State) : (s.logTxn t).engine = s.engine := rfl
@[simp] theorem State.logTxn_request (t : CipherTxn) (s : State) : (s.logTxn t).request = s.request := rfl
@[simp] theorem State.logTxn_env (t : CipherTxn) (s : State) : (s.logTxn t).env = s.env := rfl
@[simp] theorem State.logTxn_response (t : CipherTxn) (s : State) : (s.logTxn t).response = s.response := rfl
@[simp] theorem State.logTxn_cipherLog (t : CipherTxn) (s : State) :
    (s.logTxn t).cipherLog = s.cipherLog ++ [t] := rfl
@[simp] theorem State.logTxn_hosts (t : CipherTxn) (s : State) : (s.logTxn t).hosts = s.hosts := rfl
@[simp] theorem State.logTxn_inputs (t : CipherTxn) (s : State) : (s.logTxn t).inputs = s.inputs := rfl
@[simp] theorem State.logTxn_tick (t : CipherTxn) (s : State) : (s.logTxn t).tick = s.tick := rfl

@[simp] theorem State.present_engine (r : Request) (e : Env) (s : State) : (s.present r e).engine = s.engine := rfl
@[simp] theorem State.present_request (r : Request) (e : Env) (s : State) : (s.present r e).request = r := rfl
@[simp] theorem State.present_env (r : Request) (e : Env) (s : State) : (s.present r e).env = e := rfl
@[simp] theorem State.present_response (r : Request) (e : Env) (s : State) : (s.present r e).response = none := rfl
@[simp] theorem State.present_cipherLog (r : Request) (e : Env) (s : State) :
    (s.present r e).cipherLog = s.cipherLog := rfl
@[simp] theorem State.present_hosts (r : Request) (e : Env) (s : State) : (s.present r e).hosts = s.hosts := rfl
@[simp] theorem State.present_inputs (r : Request) (e : Env) (s : State) : (s.present r e).inputs = s.inputs := rfl
@[simp] theorem State.present_tick (r : Request) (e : Env) (s : State) : (s.present r e).tick = s.tick := rfl

end Sys2Proof.Machine
end

