-- ==== Sys2Proof/Laws/Ops.lean ====
section
/-! SUPPORT. What each shared operation of Machine/Ops.lean can do. -/

namespace Sys2Proof.Machine

/-- Taking an error: the response, `LASTERR`, and nothing else (R162, R163). -/
theorem raise_eq (st : Status) (s : State) : raise st s =
    { s with
      engine := { s.engine with lasterr := st }
      response := some ⟨s.request.host, st, 0⟩ } := rfl

@[simp] theorem raise_engine (st : Status) (s : State) :
    (raise st s).engine = { s.engine with lasterr := st } := rfl
@[simp] theorem raise_response (st : Status) (s : State) :
    (raise st s).response = some ⟨s.request.host, st, 0⟩ := rfl
@[simp] theorem raise_request (st : Status) (s : State) : (raise st s).request = s.request := rfl
@[simp] theorem raise_env (st : Status) (s : State) : (raise st s).env = s.env := rfl
@[simp] theorem raise_cipherLog (st : Status) (s : State) : (raise st s).cipherLog = s.cipherLog := rfl
@[simp] theorem raise_hosts (st : Status) (s : State) : (raise st s).hosts = s.hosts := rfl
@[simp] theorem raise_inputs (st : Status) (s : State) : (raise st s).inputs = s.inputs := rfl
@[simp] theorem raise_tick (st : Status) (s : State) : (raise st s).tick = s.tick := rfl

/-- Answering `OK`: the response and nothing else (R11). -/
theorem respond_eq (v : Word) (s : State) :
    respond v s = { s with response := some ⟨s.request.host, .ok, v⟩ } := rfl

@[simp] theorem respond_engine (v : Word) (s : State) : (respond v s).engine = s.engine := rfl
@[simp] theorem respond_response (v : Word) (s : State) :
    (respond v s).response = some ⟨s.request.host, .ok, v⟩ := rfl
@[simp] theorem respond_request (v : Word) (s : State) : (respond v s).request = s.request := rfl
@[simp] theorem respond_env (v : Word) (s : State) : (respond v s).env = s.env := rfl
@[simp] theorem respond_cipherLog (v : Word) (s : State) : (respond v s).cipherLog = s.cipherLog := rfl
@[simp] theorem respond_hosts (v : Word) (s : State) : (respond v s).hosts = s.hosts := rfl
@[simp] theorem respond_inputs (v : Word) (s : State) : (respond v s).inputs = s.inputs := rfl
@[simp] theorem respond_tick (v : Word) (s : State) : (respond v s).tick = s.tick := rfl

@[simp] theorem resetEngine_engine (s : State) : (resetEngine s).engine = Engine.reset := rfl
@[simp] theorem resetEngine_request (s : State) : (resetEngine s).request = s.request := rfl
@[simp] theorem resetEngine_env (s : State) : (resetEngine s).env = s.env := rfl
@[simp] theorem resetEngine_response (s : State) : (resetEngine s).response = s.response := rfl
@[simp] theorem resetEngine_cipherLog (s : State) : (resetEngine s).cipherLog = s.cipherLog := rfl
@[simp] theorem resetEngine_hosts (s : State) : (resetEngine s).hosts = s.hosts := rfl
@[simp] theorem resetEngine_inputs (s : State) : (resetEngine s).inputs = s.inputs := rfl
@[simp] theorem resetEngine_tick (s : State) : (resetEngine s).tick = s.tick := rfl

/-- `CipherKey`: one transaction, answered by `kinit_ok` (R61). -/
theorem cipherKey_eq (n : Nat) (s : State) : cipherKey n s =
    (s.logTxn (.key n (s.engine.seedin.toList.take n) s.env.kinitOk), s.env.kinitOk) := rfl

/-- `CipherEnc` that succeeds: one transaction and the ciphertext (R62). -/
theorem cipherEnc_ok (E : Cipher) (block : Block) (s : State) (h : s.env.encOk = true) : cipherEnc E block s =
    (s.logTxn (.enc block true), some (E s.engine.klen.toNat s.engine.key block)) := by
  simp [cipherEnc, h]

/-- `CipherEnc` that fails: one transaction and no ciphertext (R62). -/
theorem cipherEnc_fail (E : Cipher) (block : Block) (s : State) (h : s.env.encOk = false) : cipherEnc E block s =
    (s.logTxn (.enc block false), none) := by
  simp [cipherEnc, h]

/-- The key of an instance depends on `SEED` and `KLEN` alone (R36). -/
theorem Engine.key_congr {e f : Engine} (hs : e.seed = f.seed) (hk : e.klen = f.klen) : e.key = f.key := by
  simp [Engine.key, hs, hk]

@[simp] theorem onNext_next (f : State → State) (s : State) : onNext f (.next s) = .next (f s) := rfl

theorem onNext_eq_next {f : State → State} {o : Host.Outcome State Fault Refusal} {t : State} :
    onNext f o = .next t ↔ ∃ s, o = .next s ∧ f s = t := by
  cases o <;> simp [onNext]

end Sys2Proof.Machine
end

