-- ==== Sys2Proof/Laws/Generation.lean ====
section
/-! SUPPORT. What the shared parts of `NEXTBITS` can do (41_generation.md). -/

namespace Sys2Proof.Machine

/-- With at least 4 bytes left, extraction never reads outside the buffer: the word at the cursor is delivered and the
cursor advances (R38, R115). -/
theorem deliverBits_inside (w : Nat) (s : State) (h : s.engine.cur.toNat + 4 ≤ 16) : deliverBits w s =
    .next (respond (alignBits (be32 s.engine.buf[s.engine.cur.toNat] s.engine.buf[s.engine.cur.toNat + 1]
        s.engine.buf[s.engine.cur.toNat + 2] s.engine.buf[s.engine.cur.toNat + 3]) w)
      (s.withEngine { s.engine with cur := s.engine.cur + 4 })) := by
  simp [deliverBits, extractWord, readBufWord_inside _ _ h]

/-- The next block, encrypted: the counter incremented, one transaction, the ciphertext of the new counter (R113). -/
theorem nextBlock_ok (E : Cipher) (s : State) (h : s.env.encOk = true) : nextBlock E s =
    ((s.withEngine { s.engine with ctr := incrementCounter s.engine.ctr }).logTxn
        (.enc (incrementCounter s.engine.ctr) true),
      some (E s.engine.klen.toNat s.engine.key (incrementCounter s.engine.ctr))) := by
  simp [nextBlock, cipherEnc, h, Engine.key]

/-- The next block, refused by the cipher core: the counter is incremented all the same (R113, R120). -/
theorem nextBlock_fail (E : Cipher) (s : State) (h : s.env.encOk = false) : nextBlock E s =
    ((s.withEngine { s.engine with ctr := incrementCounter s.engine.ctr }).logTxn
      (.enc (incrementCounter s.engine.ctr) false), none) := by
  simp [nextBlock, cipherEnc, h]

/-- A refresh whose encryption succeeds delivers the first word of the new block (R114, R115). -/
theorem refreshAndDeliver_ok (E : Cipher) (w : Nat) (s : State) (h : s.env.encOk = true) :
    refreshAndDeliver E w s =
      (let c := incrementCounter s.engine.ctr
       let b := E s.engine.klen.toNat s.engine.key c
       .next
        { s with
          engine := { s.engine with ctr := c, buf := b, cur := 4, pop := true }
          response := some ⟨s.request.host, .ok, alignBits (be32 b[0] b[1] b[2] b[3]) w⟩
          cipherLog := s.cipherLog ++ [.enc c true] }) := by
  simp only [refreshAndDeliver, nextBlock_ok E s h]
  rw [deliverBits_inside _ _ (by simp [refresh])]
  rfl

/-- A refresh whose encryption fails ends the instance (R120). -/
theorem refreshAndDeliver_fail (E : Cipher) (w : Nat) (s : State) (h : s.env.encOk = false) :
    refreshAndDeliver E w s =
      (let c := incrementCounter s.engine.ctr
       .next
        { s with
          engine := { s.engine with ctr := c, state := .dead, lasterr := .errGen }
          response := some ⟨s.request.host, .errGen, 0⟩
          cipherLog := s.cipherLog ++ [.enc c false] }) := by
  simp only [refreshAndDeliver, nextBlock_fail E s h]
  rfl

end Sys2Proof.Machine
end

