-- ==== Sys2Proof/Laws/PerInstr.lean ====
section
/-! SUPPORT. Statements about every command, one lemma per constructor. -/

namespace Sys2Proof.Laws.OpcodeRow

/-- The encoding of a command is a word of its own row of the opcode map (R75). -/
def Statement (i : Instr) : Prop :=
  ∃ row ∈ opcodeMap, row.mnemonic = i.mnemonic ∧ row.spells (encode i) = true

theorem rst : Statement .rst := by unfold Statement; decide
theorem seedw (k : BitVec 3) : Statement (.seedw k) := by unfold Statement; revert k; decide
theorem init (n : BitVec 6) : Statement (.init n) := by unfold Statement; revert n; decide
theorem nextbits (w : BitVec 6) : Statement (.nextbits w) := by unfold Statement; revert w; decide
theorem seedr (k : BitVec 3) : Statement (.seedr k) := by unfold Statement; revert k; decide
theorem stat : Statement .stat := by unfold Statement; decide
theorem ctrr (k : BitVec 2) : Statement (.ctrr k) := by unfold Statement; revert k; decide
theorem bufr (k : BitVec 2) : Statement (.bufr k) := by unfold Statement; revert k; decide

end Sys2Proof.Laws.OpcodeRow
end

