-- ==== Sys2Proof/Laws/Port.lean ====
section
/-! SUPPORT. What the hosts, the arbiter and the opening of a step can do (R200, R201). -/

namespace Sys2Proof.Machine

open Sys2Proof.Safety

@[simp] theorem nextInput_of_cons (i : StepInput) (rest : List StepInput) (s : State) :
    nextInput { s with inputs := i :: rest } = i := rfl

@[simp] theorem beginStep_engine (s : State) : (beginStep s).engine = s.engine := rfl
@[simp] theorem beginStep_request (s : State) : (beginStep s).request = s.request := rfl
@[simp] theorem beginStep_env (s : State) : (beginStep s).env = s.env := rfl
@[simp] theorem beginStep_response (s : State) : (beginStep s).response = none := rfl
@[simp] theorem beginStep_cipherLog (s : State) : (beginStep s).cipherLog = s.cipherLog := rfl
@[simp] theorem beginStep_hosts (s : State) : (beginStep s).hosts = s.hosts.map HostPort.issue := rfl
@[simp] theorem beginStep_inputs (s : State) : (beginStep s).inputs = s.inputs.tail := rfl
@[simp] theorem beginStep_tick (s : State) : (beginStep s).tick = s.tick + 1 := rfl

/-- Issuing a request neither adds nor drops nor reorders what a host has to be served (R200). -/
@[simp] theorem issue_todo (p : HostPort) : todo p.issue = todo p := by
  rcases p with ⟨program, _ | c, received⟩ <;> rcases program with _ | ⟨d, rest⟩ <;> rfl

@[simp] theorem issue_received (p : HostPort) : p.issue.received = p.received := by
  rcases p with ⟨program, _ | c, received⟩ <;> rcases program with _ | ⟨d, rest⟩ <;> rfl

/-- After issuing, the outstanding request is the first command the host has to be served. -/
theorem issue_outstanding (p : HostPort) : p.issue.outstanding = (todo p).head? := by
  rcases p with ⟨program, _ | c, received⟩ <;> rcases program with _ | ⟨d, rest⟩ <;> rfl

theorem firstOutstanding_spec {hosts : List HostPort} {n h : Nat} {c : Command}
    (hf : firstOutstanding n hosts = some (h, c)) :
    n ≤ h ∧ ∃ p, hosts[h - n]? = some p ∧ p.outstanding = some c := by
  induction hosts generalizing n with
  | nil => simp [firstOutstanding] at hf
  | cons p rest ih =>
    cases hp : p.outstanding with
    | some d =>
      simp only [firstOutstanding, hp, Option.some.injEq, Prod.mk.injEq] at hf
      obtain ⟨rfl, rfl⟩ := hf
      exact ⟨Nat.le_refl _, p, by simp, hp⟩
    | none =>
      simp only [firstOutstanding, hp] at hf
      obtain ⟨hle, q, hq, hc⟩ := ih hf
      refine ⟨by omega, q, ?_, hc⟩
      rw [show h - n = (h - (n + 1)) + 1 by omega, List.getElem?_cons_succ]; exact hq

/-- What the arbiter grants is outstanding at the host it names (R201). -/
theorem arbitrate_spec {g h : Nat} {c : Command} {hosts : List HostPort}
    (ha : arbitrate g hosts = some (h, c)) : ∃ p, hosts[h]? = some p ∧ p.outstanding = some c := by
  cases hg : outstandingAt g hosts with
  | some d =>
    simp only [arbitrate, hg, Option.some.injEq, Prod.mk.injEq] at ha
    obtain ⟨rfl, rfl⟩ := ha
    simp only [outstandingAt] at hg
    split at hg
    · exact ⟨_, by assumption, hg⟩
    · simp at hg
  | none =>
    simp only [arbitrate, hg] at ha
    obtain ⟨_, p, hp, hc⟩ := firstOutstanding_spec ha
    exact ⟨p, by simpa using hp, hc⟩

theorem firstOutstanding_none {hosts : List HostPort} {n : Nat} :
    firstOutstanding n hosts = none ↔ ∀ p ∈ hosts, p.outstanding = none := by
  induction hosts generalizing n with
  | nil => simp [firstOutstanding]
  | cons p rest ih => cases hp : p.outstanding <;> simp [firstOutstanding, hp, ih]

/-- The arbiter grants nothing only when nothing is outstanding (R201). -/
theorem arbitrate_none {g : Nat} {hosts : List HostPort} :
    arbitrate g hosts = none ↔ ∀ p ∈ hosts, p.outstanding = none := by
  constructor
  · intro ha
    cases hg : outstandingAt g hosts with
    | some d => simp [arbitrate, hg] at ha
    | none => exact firstOutstanding_none.mp (by simpa [arbitrate, hg] using ha)
  · intro h
    have hg : outstandingAt g hosts = none := by
      simp only [outstandingAt]
      split
      · exact h _ (List.mem_of_getElem? (by assumption))
      · rfl
    simpa [arbitrate, hg] using firstOutstanding_none.mpr h

/-- Every outstanding request is granted by the choice of its host (R201). -/
theorem arbitrate_preferred {h : Nat} {p : HostPort} {c : Command} {hosts : List HostPort}
    (hp : hosts[h]? = some p) (hc : p.outstanding = some c) : arbitrate h hosts = some (h, c) := by
  simp [arbitrate, outstandingAt, hp, hc]

end Sys2Proof.Machine
end

