-- ==== Sys2Proof/Tests/Slice0.lean ====
section
/-! SUPPORT. Small checks against the vectors of 95_test_vectors.md and the worked examples of the rules, and for every
obligation that has hypotheses a witness that meets them. -/

namespace Sys2Proof.Tests

open Sys2Proof.Machine Sys2Proof.Safety

-- Helpers

/-- The next state, if the outcome is one. -/
def nextOf : Host.Outcome State Fault Refusal → Option State
  | .next s => some s
  | _ => none

/-- Status and data of the response an outcome left on the port. -/
def answerOf (o : Host.Outcome State Fault Refusal) : Option (Status × Word) :=
  (nextOf o).bind fun s => s.response.map fun r => (r.status, r.rdata)

/-- One view of the engine an outcome left. -/
def viewOf {α : Type} (f : Engine → α) (o : Host.Outcome State Fault Refusal) : Option α :=
  (nextOf o).map fun s => f s.engine

/-- The test function `E_TST` of 95_test_vectors.md, section 2. -/
def eTst : Cipher := fun len key b => Vector.ofFn fun i => b[i] + key.getD (i.val % len) 0 + BitVec.ofNat 8 (17 * i.val)

/-- `01 00^15`. -/
def ctrOne : Block := #v[1, 0, 0, 0, 0, 0, 0, 0, 0, 0, 0, 0, 0, 0, 0, 0]

/-- `01 11 22 .. FF`, the `E_TST` image of counter value 1 under the zero key. -/
def blockOne : Block :=
  #v[0x01, 0x11, 0x22, 0x33, 0x44, 0x55, 0x66, 0x77, 0x88, 0x99, 0xAA, 0xBB, 0xCC, 0xDD, 0xEE, 0xFF]

/-- The forced state of section 3.4: `READY`, 16-byte zero seed, block 1 in the buffer. -/
def forced (cur : BitVec 5) : Engine :=
  { Engine.reset with state := .ready, klen := 16, sval := 0x0F, pop := true, cur := cur, ctr := ctrOne, buf := blockOne }

/-- A fresh instance: `READY`, never populated. -/
def fresh : Engine := { Engine.reset with state := .ready, klen := 16, sval := 0x0F }

/-- The engine with the words of `sval` staged. -/
def staged (sval : BitVec 8) : Engine := { Engine.reset with sval := sval }

/-- A machine with the engine `e`, both draws true. -/
def withE (e : Engine) : State := { State.reset with engine := e, env := ⟨true, true⟩ }

/-- The same with both draws false. -/
def withFail (e : Engine) : State := { State.reset with engine := e, env := ⟨false, false⟩ }

/-- The operand word on the port. -/
def withData (d : Word) (s : State) : State := { s with request := ⟨0, 0, d⟩ }

/-- A step without reset, granted to host `g`, both draws true. -/
def quiet (g : Nat) : StepInput := ⟨false, g, ⟨true, true⟩⟩

/-- Two hosts that each have one `NEXTBITS 32` to issue, on a fresh instance. -/
def twoHosts : State :=
  { State.resetFor 2 with
    engine := fresh
    hosts := [⟨[nextbits32], none, []⟩, ⟨[nextbits32], none, []⟩]
    inputs := [quiet 1, quiet 0] }

-- Decoding: words written out from 30_encoding.md (V1.1 to V1.36)

theorem test_decode_rst : decode 0x10000000#32 = .legal .rst ∧ decode 0x10000001#32 = .illegal (.reservedBits "RST") := by
  decide
theorem test_decode_seedw : decode 0x20000007#32 = .legal (.seedw 7) ∧
    decode 0x20000008#32 = .illegal (.reservedBits "SEEDW") := by decide
theorem test_decode_init : decode 0x30000018#32 = .legal (.init 24) ∧
    decode 0x30000040#32 = .illegal (.reservedBits "INIT") := by decide
theorem test_decode_nextbits : decode 0x40000021#32 = .legal (.nextbits 33) ∧
    decode 0x40000120#32 = .illegal (.reservedBits "NEXTBITS") := by decide
theorem test_decode_seedr : decode 0x50000005#32 = .legal (.seedr 5) ∧
    decode 0x50000008#32 = .illegal (.reservedBits "SEEDR") := by decide
theorem test_decode_stat : decode 0x60000000#32 = .legal .stat ∧
    decode 0x60000001#32 = .illegal (.reservedBits "STAT") := by decide
theorem test_decode_ctrr : decode 0x70000003#32 = .legal (.ctrr 3) ∧
    decode 0x70000004#32 = .illegal (.reservedBits "CTRR") := by decide
theorem test_decode_bufr : decode 0x80000002#32 = .legal (.bufr 2) ∧
    decode 0x88000000#32 = .illegal (.reservedBits "BUFR") := by decide
theorem test_decode_reserved : decode 0#32 = .illegal (.reservedOpcode 0) ∧
    decode 0xFFFFFFFF#32 = .illegal (.reservedOpcode 15) ∧ decode 0x90000000#32 = .illegal (.reservedOpcode 9) := by decide
theorem test_decode_table_word : decodeTableWord 32 0x4000003F = some (.nextbits 63) ∧
    decodeTableWord 32 0x80000004 = none := by decide

-- WellFormed: an ill-formed line for each check, beside the last well-formed one (R80, R81)

theorem test_wf_seedw : (AsmLine.seedw 7 0).wellFormed = true ∧ (AsmLine.seedw 8 0).wellFormed = false := by decide
theorem test_wf_init : (AsmLine.init 63).wellFormed = true ∧ (AsmLine.init 64).wellFormed = false := by decide
theorem test_wf_nextbits : (AsmLine.nextbits 63).wellFormed = true ∧ (AsmLine.nextbits 64).wellFormed = false := by decide
theorem test_wf_seedr : (AsmLine.seedr 7).wellFormed = true ∧ (AsmLine.seedr 8).wellFormed = false := by decide
theorem test_wf_ctrr : (AsmLine.ctrr 3).wellFormed = true ∧ (AsmLine.ctrr 4).wellFormed = false := by decide
theorem test_wf_bufr : (AsmLine.bufr 3).wellFormed = true ∧ (AsmLine.bufr 4).wellFormed = false := by decide
theorem test_wf_loadseed : (AsmLine.loadseed (List.replicate 32 0)).wellFormed = true ∧
    (AsmLine.loadseed []).wellFormed = false ∧ (AsmLine.loadseed (List.replicate 6 0)).wellFormed = false ∧
    (AsmLine.loadseed (List.replicate 36 0)).wellFormed = false := by decide
theorem test_asm_word : assemble (.word 0x30000054#32) = some [⟨0x30000054#32, 0⟩] ∧ assemble (.init 64) = none := by decide

-- RST (V6.16, R90)

theorem test_rst_from_dead : answerOf (exec .rst (withE { forced 16 with state := .dead, lasterr := .errGen })) =
      some (.ok, 0) ∧
    viewOf statWord (exec .rst (withE { forced 16 with state := .dead, lasterr := .errGen })) = some 0 := by decide

-- SEEDW (V6.1, V6.2)

theorem test_seedw_low_lane_first :
    viewOf (fun e => e.seedin.toList.take 5) (exec (.seedw 0) (withData 0x13121110#32 State.reset)) =
      some [0x10, 0x11, 0x12, 0x13, 0] ∧
    viewOf statWord (exec (.seedw 0) (withData 0x13121110#32 State.reset)) = some 0x00040000#32 := by decide
theorem test_seedw_last_word :
    viewOf (fun e => e.seedin.toList.drop 27) (exec (.seedw 7) (withData 0xBFBEBDBC#32 State.reset)) =
      some [0, 0xBC, 0xBD, 0xBE, 0xBF] ∧
    viewOf statWord (exec (.seedw 7) (withData 0xBFBEBDBC#32 State.reset)) = some 0x02000000#32 := by decide

-- INIT (V6.5, V6.8, V6.9, V6.11)

theorem test_init_ok :
    viewOf statWord (exec (.init 16) (withE (staged 0x0F))) = some 0x003D0001#32 ∧
    viewOf (fun e => e.seed.toList.drop 15)
      (exec (.init 16) (withE { staged 0xFF with seedin := Vector.replicate 32 0xAA })) =
      some (0xAA :: List.replicate 16 0) := by decide
theorem test_init_refused : answerOf (exec (.init 24) (withE (staged 0x0F))) = some (.errSeed, 0) ∧
    answerOf (exec (.init 32) (withFail (staged 0xFF))) = some (.errCipherInit, 0) := by decide

-- NEXTBITS (V3.15, V3.16) with `E_TST`

theorem test_nextbits_four_left : answerOf (nextBits eTst 32 (withE (forced 12))) = some (.ok, 0xCCDDEEFF#32) ∧
    viewOf (fun e => (e.cur, e.ctr.toList)) (nextBits eTst 32 (withE (forced 12))) = some (16, ctrOne.toList) := by decide
theorem test_nextbits_three_left : answerOf (nextBits eTst 32 (withE (forced 13))) = some (.ok, 0x02112233#32) ∧
    viewOf (fun e => (e.cur, e.ctr.toList)) (nextBits eTst 32 (withE (forced 13))) =
      some (4, 2 :: List.replicate 15 0) := by decide

-- The micro-operations (V2.6, V2.11, V5)

theorem test_increment_carry_stops :
    (incrementCounter #v[0xFF, 0, 0xFF, 0, 0, 0, 0, 0, 0, 0, 0, 0, 0, 0, 0, 0]).toList =
      0 :: 1 :: 0xFF :: List.replicate 13 0 := by decide
theorem test_increment_wraps : (incrementCounter (Vector.replicate 16 0xFF)).toList = List.replicate 16 0 := by decide
theorem test_align_bits : alignBits 0xDEADBEEF#32 0 = 0 ∧ alignBits 0x80000001#32 1 = 1 ∧
    alignBits 0xDEADBEEF#32 9 = 0x1BD#32 := by decide

-- SEEDR (V7.14, V7.15), STAT (V7.7, V7.9), CTRR (V4.9), BUFR (R59)

/-- A 24-byte seed `10 .. 27` (R140). -/
def seed24 : Engine :=
  { Engine.reset with
    state := .ready, klen := 24, sval := 0x3F
    seed := Vector.ofFn fun i => if i.val < 24 then BitVec.ofNat 8 (0x10 + i.val) else 0 }

theorem test_seedr_last_word : answerOf (exec (.seedr 5) (withE seed24)) = some (.ok, 0x27262524#32) := by decide
theorem test_seedr_beyond : answerOf (exec (.seedr 6) (withE seed24)) = some (.errIndex, 0) ∧
    viewOf (fun e => e.lasterr) (exec (.seedr 6) (withE seed24)) = some .errIndex := by decide
theorem test_stat_ready : answerOf (exec .stat (withE { seed24 with pop := true, cur := 8, lasterr := .errIndex })) =
    some (.ok, 0x00FD8745#32) := by decide
theorem test_stat_dead : answerOf (exec .stat
    (withE { forced 16 with state := .dead, klen := 32, sval := 0xFF, lasterr := .errGen })) =
    some (.ok, 0x03FE0586#32) := by decide
theorem test_ctrr_words :
    (List.map (fun k => answerOf (exec (.ctrr k) (withE { fresh with
      ctr := #v[0x10, 0x32, 0x54, 0x76, 0x98, 0xBA, 0xDC, 0xFE, 0xEF, 0xCD, 0xAB, 0x89, 0x67, 0x45, 0x23, 0x01] })))
      [0, 1, 2, 3]) =
    [some (.ok, 0x76543210#32), some (.ok, 0xFEDCBA98#32), some (.ok, 0x89ABCDEF#32), some (.ok, 0x01234567#32)] := by
  decide
theorem test_bufr_swaps : answerOf (exec (.bufr 1) (withE (forced 4))) = some (.ok, 0x77665544#32) ∧
    viewOf (fun e => e.cur) (exec (.bufr 1) (withE (forced 4))) = some 4 := by decide

-- The step

theorem test_step_places_command : answerOf (step (State.reset.withFetchWord 32 0x60000000)) = some (.ok, 0) ∧
    answerOf (step (State.reset.withFetchWord 32 0x40000020)) = some (.errState, 0) ∧
    answerOf (step (State.reset.withFetchWord 32 0x90000000)) = some (.errIllegal, 0) := by decide
theorem test_step_routes_response :
    (nextOf (step { twoHosts with engine := forced 4 })).map (fun s => s.hosts.map fun p => p.received) =
      some [[], [⟨1, .ok, 0x44556677#32⟩]] := by decide
theorem test_step_hardware_reset :
    (nextOf (step { twoHosts with inputs := [⟨true, 0, ⟨true, true⟩⟩] })).map
      (fun s => (statWord s.engine, s.response, s.hosts.map todo)) =
      some (0, none, [[nextbits32], [nextbits32]]) := by decide

-- Witnesses: every hypothesis of an obligation is met, each clause at the ends of its range

theorem witness_DecodeInvertsEncode : decode 0x80000003#32 = .legal (.bufr 3) ∧ decode 0x4000003F#32 = .legal (.nextbits 63) := by
  decide
theorem witness_OpcodeMapSelectsTheCommand : opcodeMap.length = 8 ∧
    (opcodeMap.map fun row => row.spells row.matchWord) = List.replicate 8 true := by decide
theorem witness_IllegalWordsChangeOnlyLasterr :
    ([0x0FFFFFFF#32, 0x90000000#32, 0x10000001#32, 0x60000001#32, 0x20000008#32, 0x50000008#32, 0x30000040#32,
      0x40000040#32, 0x70000004#32, 0x80000004#32].map fun w => (decode w).instr?) = List.replicate 10 none := by decide
theorem witness_LoadseedExpandsToSeedwCommands :
    ((List.replicate 4 (0 : Byte)).length % 4 = 0 ∧ 4 ≤ (List.replicate 4 (0 : Byte)).length) ∧
    (List.replicate 32 (0 : Byte)).length ≤ 32 ∧
    ¬((List.replicate 36 (0 : Byte)).length % 4 = 0 ∧ 4 ≤ (List.replicate 36 (0 : Byte)).length ∧
      (List.replicate 36 (0 : Byte)).length ≤ 32) := by decide
theorem witness_OnlySeedwReadsTheOperandWord : ∀ k, decode 0x30000010#32 ≠ .legal (.seedw k) := by decide
theorem witness_HostWordsUseLittleEndianLanes :
    (seed24.state ≠ .uninit ∧ (5 : BitVec 3).toNat < seed24.klen.toNat / 4 ∧ (23 : Fin 32).val / 4 = (5 : BitVec 3).toNat) ∧
    ((forced 12).state = .ready ∧ (forced 12).pop = true ∧ (forced 12).cur.toNat = 4 * (3 : BitVec 2).toNat) ∧
    (forced 0).cur.toNat = 4 * (0 : BitVec 2).toNat := by decide

/-- What a `NEXTBITS` that refreshes asks, for either draw, at the ends of the ranges: the hypotheses of
NextbitsRefreshesThenDelivers, NextbitsCipherFailureEndsInstance, WidthZeroConsumesAndReturnsZero, AlignBitsTakesTheTopBits
and the first clause of CipherEncOncePerRefresh. -/
theorem witness_refresh : fresh.state = .ready ∧ (32 : BitVec 6).toNat ≤ 32 ∧ (0 : BitVec 6).toNat ≤ 32 ∧
    (fresh.pop = false ∨ 13 ≤ fresh.cur.toNat) ∧ ((forced 13).pop = false ∨ 13 ≤ (forced 13).cur.toNat) ∧
    ((forced 31).pop = false ∨ 13 ≤ (forced 31).cur.toNat) ∧
    (withE fresh).env.encOk = true ∧ (withFail fresh).env.encOk = false := by decide

theorem witness_IncrementCounterAddsOne :
    ({ forced 16 with ctr := Vector.replicate 16 255 } : Engine).ctr = Vector.replicate 16 255 ∧
    ({ forced 16 with ctr := Vector.replicate 16 255 } : Engine).state = .ready ∧
    13 ≤ ({ forced 16 with ctr := Vector.replicate 16 255 } : Engine).cur.toNat ∧
    (withE { forced 16 with ctr := Vector.replicate 16 255 }).env.encOk = true := ⟨rfl, by decide, by decide, rfl⟩

/-- The invariants hold in a fresh instance, so every statement that asks for them has a case in
`READY`. -/
theorem witness_MachineInv_ready : MachineInv (withE fresh) := by
  refine ⟨⟨?_, .inr (.inl rfl), ?_, ?_, ?_, ?_, ?_, ?_, ?_, ?_, ?_⟩, ?_, ?_⟩ <;> decide

/-- They hold in `UNINIT`, at the state after reset. -/
theorem witness_MachineInv_uninit : MachineInv State.reset ∧ State.reset.engine.state = .uninit := by
  refine ⟨⟨⟨?_, .inl rfl, ?_, ?_, ?_, ?_, ?_, ?_, ?_, ?_, ?_⟩, ?_, ?_⟩, ?_⟩ <;> decide

/-- An instance that died at its second refresh: the first block in the buffer, consumed, and the counter at 2 (R120). -/
def died : State :=
  { withE { forced 16 with
      state := .dead, ctr := #v[2, 0, 0, 0, 0, 0, 0, 0, 0, 0, 0, 0, 0, 0, 0, 0]
      buf := Config.cipher 16 (List.replicate 16 0) ctrOne, lasterr := .errGen } with
    cipherLog := [.key 16 (List.replicate 16 0) true, .enc ctrOne true,
      .enc #v[2, 0, 0, 0, 0, 0, 0, 0, 0, 0, 0, 0, 0, 0, 0, 0] false] }

/-- They hold in `DEAD` with a populated buffer. -/
theorem witness_MachineInv_dead : MachineInv died ∧ died.engine.state = .dead ∧ died.engine.pop = true := by
  refine ⟨⟨⟨?_, .inr (.inl rfl), ?_, ?_, ?_, ?_, ?_, ?_, ?_, fun _ _ => ⟨rfl, ctrOne, ?_, rfl⟩, ?_⟩, ?_, ?_⟩, rfl, rfl⟩
  all_goals decide

theorem witness_NextbitsRefreshesExactlyWhenNeeded : MachineInv (withE fresh) ∧ (withE fresh).engine.state = .ready ∧
    ¬((forced 12).pop = false ∨ (16 : Int) - (forced 12).cur.toNat < 4) := ⟨witness_MachineInv_ready, by decide, by decide⟩
theorem witness_NextbitsDeliversFromTheBuffer : (forced 0).cur.toNat ≤ 12 ∧ (forced 12).cur.toNat ≤ 12 ∧
    (forced 12).state = .ready ∧ (forced 12).pop = true ∧ (32 : BitVec 6).toNat ≤ 32 := by decide
theorem witness_NextbitsRefusesWideWidths : (33 ≤ (33 : BitVec 6).toNat ∧ 33 ≤ (63 : BitVec 6).toNat) ∧
    fresh.state = .ready ∧ answerOf (exec (.nextbits 33) (withE fresh)) = some (.errWidth, 0) ∧
    ((0x40000040#32).toNat / 2 ^ 28 = 4 ∧ 64 ≤ (0x40000040#32).toNat % 2 ^ 28) := by decide
theorem witness_NextbitsOutsideReady : State.reset.engine.state = .uninit ∧
    (withE { forced 16 with state := .dead }).engine.state = .dead := by decide
theorem witness_NextbitsResultInRange : answerOf (exec (.nextbits 32) (withE (forced 12))) = some (.ok, 0xCCDDEEFF#32) ∧
    answerOf (exec (.nextbits 0) (withE (forced 0))) = some (.ok, 0) := by decide
theorem witness_GenerationErrorExactlyWhen : answerOf (exec (.nextbits 32) (withFail fresh)) = some (.errGen, 0) ∧
    answerOf (exec (.nextbits 33) (withE { fresh with state := .dead })) = some (.errGen, 0) ∧
    answerOf (exec (.nextbits 32) (withFail (forced 12))) = some (.ok, 0xCCDDEEFF#32) := by decide
theorem witness_FirstBlockEncryptsCounterOne : answerOf (exec (.init 16) (withE (staged 0x0F))) = some (.ok, 0) ∧
    (withE (staged 0x0F)).env.encOk = true ∧
    ∃ t, exec (.nextbits 32) (withFail { forced 16 with ctr := Vector.replicate 16 255 }) = .next t ∧
      t.cipherLog = [] ++ [.enc (incrementCounter (Vector.replicate 16 255)) false] ∧
      le128 (incrementCounter (Vector.replicate 16 255)) = 0 := ⟨by decide, rfl, _, rfl, rfl, by decide⟩
theorem witness_KeystreamInClosedForm : fresh.state = .ready ∧ fresh.pop = false ∧ fresh.cur = 0 ∧ le128 fresh.ctr = 0 ∧
    ∀ x ∈ [((⟨0, 0x40000020#32, 0⟩, ⟨true, true⟩) : Request × Env), (⟨0, 0x80000000#32, 0⟩, ⟨true, true⟩)],
      isRst x.1 = false := by decide
theorem witness_OtherCommandsLeaveTheStream : fresh.state ≠ .uninit ∧
    ∀ x ∈ [((⟨0, 0x20000000#32, 7⟩, ⟨true, true⟩) : Request × Env), (⟨0, 0x40000020#32, 0⟩, ⟨true, false⟩)],
      isRst x.1 = false := by decide
theorem witness_ResetForgetsTheHistory : isRst ⟨0, 0x10000000#32, 0⟩ = true := by decide
theorem witness_SharedStreamHasNoGapsOrRepeats : MachineInv twoHosts ∧ twoHosts.engine.state = .ready ∧
    2 = twoHosts.hosts.length * 1 ∧
    (∀ p ∈ twoHosts.hosts, p.outstanding = none ∧ p.program = List.replicate 1 nextbits32) ∧
    2 ≤ twoHosts.inputs.length ∧ (∀ i ∈ twoHosts.inputs, i.hardReset = false ∧ i.env.encOk = true) := by
  refine ⟨⟨⟨?_, .inr (.inl rfl), ?_, ?_, ?_, ?_, ?_, ?_, ?_, ?_, ?_⟩, ?_, ?_⟩, ?_, ?_, ?_, ?_, ?_⟩ <;> decide
theorem witness_RstRestoresTheResetState : (0x10000000#32).toNat / 2 ^ 28 = 1 ∧ (0x10000000#32).toNat % 2 ^ 28 = 0 ∧
    (0x18000000#32).toNat / 2 ^ 28 = 1 ∧ (0x18000000#32).toNat % 2 ^ 28 ≠ 0 ∧
    viewOf (fun e => e.state) (serve ⟨0, 0x10000000#32, 0⟩ ⟨true, true⟩ (withE fresh)) = some .uninit := by decide

/-- The conditions of a successful `INIT`, for each legal length with exactly its words staged. -/
theorem witness_InitConstructsTheInstance : (staged 0x0F).state = .uninit ∧
    (∀ k : Fin 8, k.val < (16 : BitVec 6).toNat / 4 → (staged 0x0F).sval.getLsbD k.val = true) ∧
    (∀ k : Fin 8, k.val < (24 : BitVec 6).toNat / 4 → (staged 0x3F).sval.getLsbD k.val = true) ∧
    (∀ k : Fin 8, k.val < (32 : BitVec 6).toNat / 4 → (staged 0xFF).sval.getLsbD k.val = true) ∧
    (withE (staged 0x0F)).env.kinitOk = true ∧ (withFail (staged 0x0F)).env.kinitOk = false := by decide
theorem witness_InitValidatesTheSeed :
    ¬(((16 : BitVec 6) = 16 ∨ (16 : BitVec 6) = 24 ∨ (16 : BitVec 6) = 32) ∧
      ∀ k : Fin 8, k.val < (16 : BitVec 6).toNat / 4 → (staged 0x07).sval.getLsbD k.val = true) ∧
    answerOf (exec (.init 20) (withE (staged 0xFF))) = some (.errSeed, 0) ∧
    answerOf (exec (.init 16) (withE (staged 0x07))) = some (.errSeed, 0) := by decide
theorem witness_FailedInitConstructsNothing : (⟨0, 0x30000020#32, 0⟩ : Request).cmd = encode (.init 32) ∧
    answerOf (exec (.init 16) (withFail (staged 0x0F))) = some (.errCipherInit, 0) := by decide
theorem witness_SeedAndKeyLastTheInstance : seed24.state ≠ .uninit ∧ isRst ⟨0, 0x30000018#32, 0⟩ = false ∧
    isRst ⟨0, 0x18000000#32, 0⟩ = false := by decide
/-- Also the hypotheses of HardwareResetLeavesTheHosts and LifeCycleTableIsComplete. -/
theorem witness_HardwareResetGivesTheResetValues :
    (nextInput { twoHosts with inputs := [⟨true, 0, ⟨true, true⟩⟩] }).hardReset = true ∧
    ∃ p, twoHosts.hosts[1]? = some p := ⟨rfl, _, rfl⟩
theorem witness_SeedrReadsTheCapturedSeed : State.reset.engine.state = .uninit ∧
    (seed24.state ≠ .uninit ∧ seed24.klen.toNat / 4 ≤ (6 : BitVec 3).toNat ∧ (5 : BitVec 3).toNat < seed24.klen.toNat / 4) ∧
    ((0x50000008#32).toNat / 2 ^ 28 = 5 ∧ 2 ^ 3 ≤ (0x50000008#32).toNat % 2 ^ 28) ∧
    answerOf (exec (.seedr 4) (withE { fresh with state := .dead })) = some (.errIndex, 0) := by decide
/-- The malformed words of STAT, CTRR and BUFR. -/
theorem witness_malformed_readouts : ((0x60000001#32).toNat / 2 ^ 28 = 6 ∧ (0x60000001#32).toNat % 2 ^ 28 ≠ 0) ∧
    ((0x70000004#32).toNat / 2 ^ 28 = 7 ∧ 2 ^ 2 ≤ (0x70000004#32).toNat % 2 ^ 28) ∧
    ((0x80000004#32).toNat / 2 ^ 28 = 8 ∧ 2 ^ 2 ≤ (0x80000004#32).toNat % 2 ^ 28) := by decide
/-- The last clauses of CtrrReadsTheCounter and BufrReadsTheBuffer. -/
theorem witness_CtrrAndBufrReadZero : MachineInv (withE fresh) ∧
    ((withE fresh).engine.state = .ready ∧ (withE fresh).engine.pop = false) := ⟨witness_MachineInv_ready, by decide⟩
theorem witness_ReadoutNeverTouchesGeneration : 5 ≤ (0x50000000#32).toNat / 2 ^ 28 ∧
    (0x8FFFFFFF#32).toNat / 2 ^ 28 ≤ 8 := by decide
theorem witness_BeforeInitNothingIsServed : MachineInv State.reset ∧ State.reset.engine.state = .uninit :=
  witness_MachineInv_uninit
theorem witness_AdmissibilityTableHolds : admission (.init 16) .dead ≠ .ok ∧ admission (.nextbits 32) .dead = .errGen ∧
    admission (.seedr 0) .uninit ≠ .ok ∧ admission (.nextbits 32) .ready = .ok := by decide
theorem witness_LasterrAndErrors : answerOf (serve ⟨0, 0#32, 0⟩ ⟨true, true⟩ (withE fresh)) = some (.errIllegal, 0) ∧
    isRst ⟨0, 0x60000000#32, 0⟩ = false ∧ isRst ⟨0, 0x10000000#32, 0⟩ = true ∧
    decode 0x70000000#32 ≠ .legal .stat := by decide
theorem witness_ResponsesCarryData : answerOf (serve ⟨3, 0x80000000#32, 0⟩ ⟨true, true⟩ (withE (forced 4))) =
    some (.ok, 0x33221101#32) := by decide
theorem witness_CipherKeyOncePerValidatedInit : ∃ t, exec (.init 16) (withE (staged 0x0F)) = .next t ∧
    t.cipherLog = [] ++ [.key 16 (List.replicate 16 0) true] := ⟨_, rfl, rfl⟩
theorem witness_CipherEncOncePerRefresh : ∃ t, exec (.nextbits 32) (withFail fresh) = .next t ∧
    t.cipherLog = [] ++ [.enc (incrementCounter (Vector.replicate 16 0)) false] := ⟨_, rfl, rfl⟩
/-- Also the hypotheses of OneCommandOfOneHostPerStep. -/
theorem witness_MachineAlwaysSteps : (nextInput twoHosts).hardReset = false ∧ (∃ p ∈ twoHosts.hosts, todo p ≠ []) ∧
    (nextInput { State.reset with inputs := [quiet 0] }).hardReset = false ∧
    ∀ p ∈ ({ State.reset with inputs := [quiet 0] } : State).hosts, todo p = [] := by decide
theorem witness_StepRunsTheDecodedCommand : (nextInput twoHosts).hardReset = false ∧
    arbitrate (nextInput twoHosts).grant (beginStep twoHosts).hosts = some (1, nextbits32) ∧
    decode nextbits32.cmd = .legal (.nextbits 32) ∧
    arbitrate (nextInput (State.reset.withFetchWord 32 0x90000000)).grant
      (beginStep (State.reset.withFetchWord 32 0x90000000)).hosts = some (0, ⟨0x90000000#32, 0⟩) ∧
    (decode 0x90000000#32).instr? = none := by decide
theorem witness_AnyPendingRequestMayBeGranted : twoHosts.hosts[1]? = some ⟨[nextbits32], none, []⟩ ∧
    todo ⟨[nextbits32], none, []⟩ = nextbits32 :: [] := ⟨rfl, rfl⟩
theorem witness_EveryStepKeepsTheEngineInvariants : MachineInv twoHosts ∧ ∃ t, step twoHosts = .next t :=
  ⟨witness_SharedStreamHasNoGapsOrRepeats.1, _, rfl⟩

end Sys2Proof.Tests
end

section
/-! PROOFS of the state family (10_state.md): the fields of a command word and of the status word as numbers, the answer to
an illegal word, the two resets, `STAT`. -/

namespace Sys2Proof

/-- The opcode is the top hexadecimal digit of the word (R70). -/
theorem opField_toNat (c : Word) : (opField c).toNat = c.toNat / 2 ^ 28 := by
  have := c.isLt
  simp only [opField, BitVec.extractLsb'_toNat, Nat.shiftRight_eq_div_pow]
  omega

/-- The reserved bits are 0 exactly when what stands below the opcode fits in the operand field (R71 to R74). -/
theorem reservedArea_eq_zero_iff {n : Nat} (hn : n ≤ 28) (c : Word) :
    reservedArea n c = 0 ↔ c.toNat % 2 ^ 28 < 2 ^ n := by
  have hsplit : (2 : Nat) ^ 28 = 2 ^ n * 2 ^ (28 - n) := by rw [← Nat.pow_add]; congr 1; omega
  have hvalue : (reservedArea n c).toNat = c.toNat % 2 ^ 28 / 2 ^ n := by
    rw [reservedArea, BitVec.extractLsb'_toNat, Nat.shiftRight_eq_div_pow, hsplit, Nat.mod_mul_right_div_self]
  have hpos : 0 < 2 ^ n := by positivity
  rw [← BitVec.toNat_inj, hvalue, ← Nat.div_eq_zero_iff_lt hpos]
  rfl

/-- A reserved bit that is not 0 makes the word illegal, whatever its opcode's command (R77). -/
theorem decodeReserved_malformed {n : Nat} (hn : n ≤ 28) (mnemonic : String) (i : Instr) {c : Word}
    (h : 2 ^ n ≤ c.toNat % 2 ^ 28) : decodeReserved n mnemonic i c = .illegal (.reservedBits mnemonic) := by
  have hbits : reservedArea n c ≠ 0 := mt (reservedArea_eq_zero_iff hn c).mp (Nat.not_lt.mpr h)
  simp only [decodeReserved, if_neg hbits]

/-- A word with the opcode of `STAT` and anything below it is illegal (R77). -/
theorem decode_malformed_stat {c : Word} (hop : c.toNat / 2 ^ 28 = 6) (h : c.toNat % 2 ^ 28 ≠ 0) :
    decode c = .illegal (.reservedBits "STAT") := by
  rw [decode, opField_toNat, hop]
  exact decodeReserved_malformed (by omega) _ _ (Nat.one_le_iff_ne_zero.mpr h)

end Sys2Proof

namespace Sys2Proof.Machine

open Sys2Proof.Safety

/-- An illegal word is answered `ERR_ILLEGAL` and leaves the rest as it was (R77, R165). -/
theorem serve_of_illegal {r : Request} {why : IllegalWord} (h : decode r.cmd = .illegal why) (e : Env) (s : State) :
    serve r e s = .next (refusedWith .errIllegal (s.present r e)) := by
  rw [serve, h]; rfl

/-- `STAT` answers the status word and leaves the rest as it was (R141). -/
theorem exec_stat (s : State) : exec .stat s = .next (answeredWith (statWord s.engine) s) := rfl

/-- `RST` answers 0 with the engine at its reset value (R90). -/
theorem exec_rst (s : State) : exec .rst s = .next (respond 0 (resetEngine s)) := rfl

/-- The hardware reset takes the whole step and resets the engine (R190). -/
theorem step_of_hardReset {s : State} (h : (nextInput s).hardReset = true) :
    step s = .next (resetEngine (beginStep s)) := by
  rw [step, if_pos h]

/-- A field above `m` bits counts in multiples of `2 ^ m`. -/
theorem toNat_append_eq_add {n m : Nat} (x : BitVec n) (y : BitVec m) :
    (x ++ y).toNat = 2 ^ m * x.toNat + y.toNat := by
  rw [BitVec.toNat_append, ← Nat.shiftLeft_add_eq_or_of_lt y.isLt, Nat.shiftLeft_eq, Nat.mul_comm]

/-- The status word as the sum of its fields, each at its lowest bit (R32). -/
theorem statWord_toNat (e : Engine) : (statWord e).toNat =
    e.state.code.toNat + 2 ^ 2 * e.pop.toNat + 2 ^ 3 * e.cur.toNat + 2 ^ 8 * e.lasterr.code.toNat +
      2 ^ 12 * e.klen.toNat + 2 ^ 18 * e.sval.toNat := by
  simp only [statWord, toNat_append_eq_add, BitVec.toNat_ofBool, BitVec.toNat_ofNat]
  omega

/-- Settles O37: the status word is the sum of its fields; a malformed word of `STAT` is illegal. -/
theorem statReturnsTheStatusWord : Obligations.StatReturnsTheStatusWord := by
  refine ⟨fun s => ⟨statWord s.engine, exec_stat s, statWord_toNat s.engine⟩, by decide, by decide, ?_, by decide⟩
  intro r e s hop hbits
  exact serve_of_illegal (decode_malformed_stat hop hbits) e s

/-- Settles O34: a hardware reset and `RST` both put the engine of `Engine.reset`, which `State.reset` holds. -/
theorem hardwareResetGivesTheResetValues : Obligations.HardwareResetGivesTheResetValues :=
  ⟨Engine.reset, by decide, rfl, fun _ h => ⟨_, step_of_hardReset h, rfl⟩, fun s => ⟨_, exec_rst s, rfl⟩⟩

end Sys2Proof.Machine
end

section
/-! PROOFS of the memory family (20_memory.md): the lanes of a host's word, the counter as an integer, and the cases of
`INIT` and `NEXTBITS` with the transaction each issues on the cipher port. -/

namespace Sys2Proof.Machine

/-- Lane `j` of a packed word is byte `j` of the four packed (R9). -/
theorem lane_packLanes (b : Bytes 4) (j : Nat) (hj : j < 4) : lane (packLanes b[0] b[1] b[2] b[3]) j = b[j] := by
  have h0 := b[0].isLt; have h1 := b[1].isLt; have h2 := b[2].isLt; have h3 := b[3].isLt
  apply BitVec.eq_of_toNat_eq
  rw [lane, BitVec.extractLsb'_toNat, packLanes_toNat, Nat.shiftRight_eq_div_pow]
  obtain rfl | rfl | rfl | rfl : j = 0 ∨ j = 1 ∨ j = 2 ∨ j = 3 := by omega
  all_goals omega

/-- The word packed of four neighbouring bytes of an array carries byte `i` in lane `i mod 4` (R54). -/
theorem lane_packLanes_getElem {n : Nat} (a : Bytes n) (q i : Nat) (h : 4 * q + 3 < n) (hi : i < n)
    (hq : i / 4 = q) :
    lane (packLanes a[4 * q] a[4 * q + 1] a[4 * q + 2] a[4 * q + 3]) (i % 4) = a[i] := by
  have hmod : i % 4 < 4 := Nat.mod_lt _ (by omega)
  obtain ⟨r, hr⟩ : ∃ r, i % 4 = r := ⟨_, rfl⟩
  obtain rfl : i = 4 * q + r := by omega
  rw [hr] at hmod ⊢
  refine (lane_packLanes #v[a[4 * q], a[4 * q + 1], a[4 * q + 2], a[4 * q + 3]] r hmod).trans ?_
  obtain rfl | rfl | rfl | rfl : r = 0 ∨ r = 1 ∨ r = 2 ∨ r = 3 := by omega
  all_goals rfl

/-- Word `k` of a 32-byte array carries byte `4k+j` in lane `j` (R54). -/
theorem lane_seedWord (a : Bytes 32) (k : BitVec 3) (i : Fin 32) (h : i.val / 4 = k.toNat) :
    lane (seedWord a k) (i.val % 4) = a[i] :=
  lane_packLanes_getElem a k.toNat i.val (by omega) i.isLt h

/-- Word `k` of a 16-byte array carries byte `4k+j` in lane `j` (R54). -/
theorem lane_blockWord (a : Block) (k : BitVec 2) (i : Fin 16) (h : i.val / 4 = k.toNat) :
    lane (blockWord a k) (i.val % 4) = a[i] :=
  lane_packLanes_getElem a k.toNat i.val (by omega) i.isLt h

/-- `BE32` and `PACK` of the same four bytes are byte swaps of each other (R9, R54). -/
theorem lane_be32_reverse (b0 b1 b2 b3 : Byte) (j : Fin 4) :
    lane (be32 b0 b1 b2 b3) (3 - j.val) = lane (packLanes b0 b1 b2 b3) j.val := by
  have hrev := lane_packLanes #v[b3, b2, b1, b0] (3 - j.val) (by omega)
  have hfwd := lane_packLanes #v[b0, b1, b2, b3] j.val j.isLt
  refine hrev.trans (Eq.trans ?_ hfwd.symm)
  fin_cases j <;> rfl

theorem littleEndian_append (xs ys : List Byte) :
    littleEndian (xs ++ ys) = littleEndian xs + 256 ^ xs.length * littleEndian ys := by
  induction xs with
  | nil => simp [littleEndian]
  | cons x xs ih => simp only [List.cons_append, littleEndian, ih, List.length_cons]; ring

/-- Four neighbouring bytes of an array are a 32-bit slice of its integer (R54, R142). -/
theorem packLanes_toNat_eq_slice (xs ys : List Byte) (b0 b1 b2 b3 : Byte) :
    (packLanes b0 b1 b2 b3).toNat =
      littleEndian (xs ++ b0 :: b1 :: b2 :: b3 :: ys) / 256 ^ xs.length % 2 ^ 32 := by
  have h0 := b0.isLt; have h1 := b1.isLt; have h2 := b2.isLt; have h3 := b3.isLt
  rw [littleEndian_append, Nat.add_mul_div_left _ _ (by positivity),
    Nat.div_eq_of_lt (littleEndian_lt xs), packLanes_toNat]
  simp only [littleEndian]
  omega

/-- Word `k` of the counter is bits `[32k+31:32k]` of its value (R54, R142). -/
theorem blockWord_toNat (a : Block) (k : BitVec 2) :
    (blockWord a k).toNat = le128 a / 2 ^ (32 * k.toNat) % 2 ^ 32 := by
  have hk := k.isLt
  have hsplit : a.toList = a.toList.take (4 * k.toNat) ++ a[4 * k.toNat] :: a[4 * k.toNat + 1] ::
      a[4 * k.toNat + 2] :: a[4 * k.toNat + 3] :: a.toList.drop (4 * k.toNat + 4) := by
    conv_lhs => rw [← List.take_append_drop (4 * k.toNat) a.toList]
    congr 1
    -- the four bytes of the word leave the front of what is dropped, one at a time
    iterate 4 rw [List.drop_eq_getElem_cons (by simp; omega)]
    simp
  have hpow : (2 : Nat) ^ (32 * k.toNat) = 256 ^ (a.toList.take (4 * k.toNat)).length := by
    rw [List.length_take, Vector.length_toList, Nat.min_eq_left (by omega), show 256 = 2 ^ 8 by rfl, ← Nat.pow_mul]
    congr 1
    omega
  rw [le128, hpow, congrArg littleEndian hsplit]
  exact packLanes_toNat_eq_slice _ _ _ _ _ _

/-- The ripple carry adds one to the integer the bytes stand for, modulo its size (R112). -/
theorem littleEndian_rippleCarry (bs : List Byte) :
    littleEndian (rippleCarry bs) = (littleEndian bs + 1) % 256 ^ bs.length := by
  induction bs with
  | nil => simp [rippleCarry, littleEndian]
  | cons b bs ih =>
    have hb := b.isLt
    have hbs := littleEndian_lt bs
    have hadd : (b + 1).toNat = (b.toNat + 1) % 256 := by simp
    have hwrap : b + 1 = 0 ↔ b.toNat = 255 := by bv_omega
    rw [List.length_cons, Nat.pow_succ, Nat.mul_comm, Nat.mod_mul, rippleCarry]
    by_cases hb255 : b.toNat = 255
    · have hcarry : (b.toNat + 256 * littleEndian bs + 1) / 256 = littleEndian bs + 1 := by omega
      rw [if_neg (not_not.mpr (hwrap.mpr hb255)), littleEndian, littleEndian, ih, hcarry]
      omega
    · have hcarry : (b.toNat + 256 * littleEndian bs + 1) / 256 = littleEndian bs := by omega
      rw [if_pos (mt hwrap.mp hb255), littleEndian, littleEndian, hcarry, Nat.mod_eq_of_lt hbs]
      omega

/-- The counter is incremented modulo `2^128` (R112). -/
theorem le128_incrementCounter (c : Block) : le128 (incrementCounter c) = (le128 c + 1) % 2 ^ 128 := by
  have h := littleEndian_rippleCarry c.toList
  rw [Vector.length_toList] at h
  exact h

/-- A refresh is needed when the buffer was never populated or fewer than 4 bytes are left (R111). -/
theorem refreshNeeded_iff (pop : Bool) (cur : BitVec 5) :
    refreshNeeded pop cur = true ↔ pop = false ∨ 13 ≤ cur.toNat := by
  simp only [refreshNeeded, Bool.or_eq_true, Bool.not_eq_true', decide_eq_true_eq]
  exact or_congr_right (by omega)

/-- `NEXTBITS` before any `INIT` succeeded is refused (R121). -/
theorem exec_nextbits_uninit (w : BitVec 6) {s : State} (h : s.engine.state = .uninit) :
    exec (.nextbits w) s = .next (raise .errState s) := by
  simp only [exec, execNextbits, nextBits, h]

/-- `NEXTBITS` after the cipher core failed is refused (R121). -/
theorem exec_nextbits_dead (w : BitVec 6) {s : State} (h : s.engine.state = .dead) :
    exec (.nextbits w) s = .next (raise .errGen s) := by
  simp only [exec, execNextbits, nextBits, h]

/-- A width above 32 is refused (R118). -/
theorem exec_nextbits_wide {w : BitVec 6} {s : State} (h : s.engine.state = .ready) (hw : 32 < w.toNat) :
    exec (.nextbits w) s = .next (raise .errWidth s) := by
  simp only [exec, execNextbits, nextBits, h, if_pos hw]

/-- An accepted `NEXTBITS` refreshes when it has to and delivers (R110). -/
theorem exec_nextbits_accepted {w : BitVec 6} {s : State} (h : s.engine.state = .ready) (hw : w.toNat ≤ 32) :
    exec (.nextbits w) s = if refreshNeeded s.engine.pop s.engine.cur then
      refreshAndDeliver Config.cipher w.toNat s else deliverBits w.toNat s := by
  simp only [exec, execNextbits, nextBits, h, if_neg (Nat.not_lt.mpr hw)]

theorem exec_nextbits_refresh {w : BitVec 6} {s : State} (h : s.engine.state = .ready) (hw : w.toNat ≤ 32)
    (hneed : s.engine.pop = false ∨ 13 ≤ s.engine.cur.toNat) :
    exec (.nextbits w) s = refreshAndDeliver Config.cipher w.toNat s := by
  rw [exec_nextbits_accepted h hw, if_pos ((refreshNeeded_iff _ _).mpr hneed)]

theorem exec_nextbits_buffered {w : BitVec 6} {s : State} (h : s.engine.state = .ready) (hw : w.toNat ≤ 32)
    (hfull : ¬(s.engine.pop = false ∨ 13 ≤ s.engine.cur.toNat)) :
    exec (.nextbits w) s = deliverBits w.toNat s := by
  rw [exec_nextbits_accepted h hw, if_neg (mt (refreshNeeded_iff _ _).mp hfull)]

/-- `BUFR k` is the byte swap of the word `NEXTBITS 32` extracts at `CUR = 4k` (R54). -/
theorem exec_nextbits_swaps_blockWord {k : BitVec 2} {s : State} (h : s.engine.state = .ready)
    (hpop : s.engine.pop = true) (hcur : s.engine.cur.toNat = 4 * k.toNat) :
    ∃ u x, exec (.nextbits 32) s = .next u ∧ u.response = some ⟨s.request.host, .ok, x⟩ ∧
      ∀ j : Fin 4, lane x (3 - j.val) = lane (blockWord s.engine.buf k) j.val := by
  have hexec : exec (.nextbits 32) s = deliverBits 32 s :=
    exec_nextbits_buffered h (by decide) (not_or.mpr ⟨by simp [hpop], by omega⟩)
  refine ⟨_, _, hexec.trans (deliverBits_inside 32 s (by omega)), respond_response _ _, fun j => ?_⟩
  simp only [hcur, alignBits, blockWord]
  exact lane_be32_reverse _ _ _ _ j

/-- `SEEDR k` of a word of the captured seed answers it (R140). -/
theorem exec_seedr_inside {k : BitVec 3} {s : State} (h : s.engine.state ≠ .uninit)
    (hk : k.toNat < s.engine.klen.toNat / 4) :
    exec (.seedr k) s = .next (respond (seedWord s.engine.seed k) s) := by
  simp only [exec, execSeedr, if_neg h, if_neg (Nat.not_le.mpr hk)]

/-- Settles O8: each lane is the byte the word view puts there; the counter word is a slice of the counter's value. -/
theorem hostWordsUseLittleEndianLanes : Obligations.HostWordsUseLittleEndianLanes := by
  refine ⟨fun k s => ⟨_, rfl, fun i hi => ?_⟩, fun k s hst hk => ?_,
    fun k s => ⟨_, _, rfl, rfl, lane_blockWord _ k, blockWord_toNat _ k⟩,
    fun k s => ⟨_, _, rfl, rfl, lane_blockWord _ k, exec_nextbits_swaps_blockWord⟩⟩
  · exact (setSeedWord_get _ k _ i.val i.isLt).trans (if_pos hi)
  · exact ⟨_, _, exec_seedr_inside hst hk, rfl, lane_seedWord _ k⟩

/-- What `INIT` asks of the length and the staged words before it turns to the cipher core (R93). -/
def SeedValidated (n : BitVec 6) (e : Engine) : Prop :=
  (n = 16 ∨ n = 24 ∨ n = 32) ∧ ∀ k : Fin 8, k.val < n.toNat / 4 → e.sval.getLsbD k.val = true

theorem legalSeedLength_iff (n : BitVec 6) :
    legalSeedLength n.toNat = true ↔ n = 16 ∨ n = 24 ∨ n = 32 := by
  simp only [legalSeedLength, Bool.or_eq_true, beq_iff_eq, ← BitVec.toNat_inj, or_assoc]
  rfl

theorem seedStaged_iff (sval : BitVec 8) {n : Nat} (hn : n ≤ 32) :
    seedStaged sval n = true ↔ ∀ k : Fin 8, k.val < n / 4 → sval.getLsbD k.val = true := by
  simp only [seedStaged, List.all_eq_true, List.mem_range]
  exact ⟨fun h k => h k.val, fun h k hk => h ⟨k, by omega⟩ hk⟩

/-- The two checks of `INIT` on the seed are the validation of R93. -/
theorem seedValidated_iff (n : BitVec 6) (e : Engine) :
    SeedValidated n e ↔ legalSeedLength n.toNat = true ∧ seedStaged e.sval n.toNat = true := by
  rw [SeedValidated, legalSeedLength_iff]
  refine and_congr_right fun hn => (seedStaged_iff e.sval ?_).symm
  obtain rfl | rfl | rfl := hn <;> decide

/-- `INIT` outside `UNINIT` is refused (R96). -/
theorem exec_init_constructed (n : BitVec 6) {s : State} (h : s.engine.state ≠ .uninit) :
    exec (.init n) s = .next (raise .errState s) := by
  simp only [exec, execInit, if_pos h]

/-- A seed that is not validated is refused before the cipher core is asked (R93). -/
theorem exec_init_invalid {n : BitVec 6} {s : State} (h : s.engine.state = .uninit)
    (hseed : ¬SeedValidated n s.engine) : exec (.init n) s = .next (raise .errSeed s) := by
  rw [seedValidated_iff, not_and_or, Bool.not_eq_true, Bool.not_eq_true] at hseed
  rw [exec, execInit, if_neg (not_not.mpr h)]
  obtain hlen | hstaged := hseed
  · rw [if_pos hlen]
  · rw [if_pos hstaged, ite_self]

/-- A validated `INIT` issues one `CipherKey`, and `kinit_ok` decides between the constructed engine and the error (R61, R92,
R168). -/
theorem exec_init_validated {n : BitVec 6} {s : State} (h : s.engine.state = .uninit)
    (hseed : SeedValidated n s.engine) :
    exec (.init n) s = .next
      (let t := s.logTxn (.key n.toNat (s.engine.seedin.toList.take n.toNat) s.env.kinitOk)
       if s.env.kinitOk then respond 0 (t.withEngine (constructed n s.engine)) else raise .errCipherInit t) := by
  obtain ⟨hlen, hstaged⟩ := (seedValidated_iff n s.engine).mp hseed
  cases hk : s.env.kinitOk <;> simp [exec, execInit, h, hlen, hstaged, cipherKey_eq, hk]

/-- A refresh issues one `CipherEnc` of the incremented counter; `enc_ok` decides whether its ciphertext becomes the
buffer (R62, R114, R120). -/
theorem refreshAndDeliver_issues (E : Cipher) (w : Nat) (s : State) :
    ∃ t, refreshAndDeliver E w s = .next t ∧ t.engine.ctr = incrementCounter s.engine.ctr ∧
      t.cipherLog = s.cipherLog ++ [.enc (incrementCounter s.engine.ctr) s.env.encOk] ∧
      t.engine.buf = if s.env.encOk then E s.engine.klen.toNat s.engine.key (incrementCounter s.engine.ctr)
        else s.engine.buf := by
  cases h : s.env.encOk with
  | true => exact ⟨_, refreshAndDeliver_ok E w s h, rfl, rfl, rfl⟩
  | false => exact ⟨_, refreshAndDeliver_fail E w s h, rfl, rfl, rfl⟩

/-- The record of the cipher port is read off an equation for the outcome. -/
theorem cipherLog_of_next {o : Host.Outcome State Fault Refusal} {t u : State} {log : List CipherTxn}
    (ht : o = .next t) (hu : o = .next u) (hlog : u.cipherLog = log) : t.cipherLog = log := by
  obtain rfl := Host.Outcome.next.inj (hu.symm.trans ht)
  exact hlog

/-- The transactions of a command on the cipher port: none, or one `CipherKey` of a validated `INIT`, or one `CipherEnc` of
a `NEXTBITS` that refreshes (R61, R62). -/
theorem exec_cipherLog {i : Instr} {s t : State} (h : exec i s = .next t) :
    t.cipherLog = s.cipherLog ∨
    (∃ n, i = .init n ∧ s.engine.state = .uninit ∧ SeedValidated n s.engine ∧ t.cipherLog =
      s.cipherLog ++ [.key n.toNat (s.engine.seedin.toList.take n.toNat) s.env.kinitOk]) ∨
    (∃ w, i = .nextbits w ∧ s.engine.state = .ready ∧ w.toNat ≤ 32 ∧
      (s.engine.pop = false ∨ 13 ≤ s.engine.cur.toNat) ∧
      t.cipherLog = s.cipherLog ++ [.enc (incrementCounter s.engine.ctr) s.env.encOk]) := by
  cases i with
  | rst | seedw | stat | ctrr | bufr => exact .inl (cipherLog_of_next h rfl rfl)
  | seedr k =>
    rw [exec, execSeedr] at h
    split_ifs at h <;> exact .inl (cipherLog_of_next h rfl rfl)
  | init n =>
    by_cases hst : s.engine.state = .uninit
    · by_cases hseed : SeedValidated n s.engine
      · refine .inr (.inl ⟨n, rfl, hst, hseed, cipherLog_of_next h (exec_init_validated hst hseed) ?_⟩)
        cases s.env.kinitOk <;> rfl
      · exact .inl (cipherLog_of_next h (exec_init_invalid hst hseed) rfl)
    · exact .inl (cipherLog_of_next h (exec_init_constructed n hst) rfl)
  | nextbits w =>
    cases hst : s.engine.state with
    | uninit => exact .inl (cipherLog_of_next h (exec_nextbits_uninit w hst) rfl)
    | dead => exact .inl (cipherLog_of_next h (exec_nextbits_dead w hst) rfl)
    | ready =>
      by_cases hw : w.toNat ≤ 32
      · by_cases hneed : s.engine.pop = false ∨ 13 ≤ s.engine.cur.toNat
        · obtain ⟨u, hu, -, hlog, -⟩ := refreshAndDeliver_issues Config.cipher w.toNat s
          have hrefresh := (exec_nextbits_refresh hst hw hneed).trans hu
          exact .inr (.inr ⟨w, rfl, rfl, hw, hneed, cipherLog_of_next h hrefresh hlog⟩)
        · have hdeliver := (exec_nextbits_buffered hst hw hneed).trans (deliverBits_inside _ _ (by omega))
          exact .inl (cipherLog_of_next h hdeliver rfl)
      · exact .inl (cipherLog_of_next h (exec_nextbits_wide hst (by omega)) rfl)

/-- Settles O48: a validated `INIT` issues its one transaction before `kinit_ok` is looked at; the cases of `exec_cipherLog`
leave no other command. -/
theorem cipherKeyOncePerValidatedInit : Obligations.CipherKeyOncePerValidatedInit := by
  refine ⟨fun n s hst hlen hstaged => ⟨_, exec_init_validated hst ⟨hlen, hstaged⟩, ?_⟩,
    fun i s t m bytes ok h hlog => ?_⟩
  · cases s.env.kinitOk <;> simp [constructed, hst]
  · obtain hnone | ⟨n, rfl, hst, hseed, hkey⟩ | ⟨w, -, -, -, -, henc⟩ := exec_cipherLog h
    · simp [hnone] at hlog
    · rw [hkey, List.append_cancel_left_eq, List.singleton_inj, CipherTxn.key.injEq] at hlog
      exact ⟨n, rfl, hlog.left.symm, hst, hseed⟩
    · simp [henc] at hlog

/-- Settles O49: a refresh issues its one transaction on the incremented counter, and the cases of `exec_cipherLog` leave no
other command. -/
theorem cipherEncOncePerRefresh : Obligations.CipherEncOncePerRefresh := by
  refine ⟨fun w s hst hw hneed => ?_, fun i s t block ok h hlog => ?_⟩
  · obtain ⟨t, ht, hctr, hlog, hbuf⟩ := refreshAndDeliver_issues Config.cipher w.toNat s
    rw [← exec_nextbits_refresh hst hw hneed] at ht
    refine ⟨t, ht, ?_, hctr ▸ hlog, fun hok => ?_, fun hfail => ?_⟩
    · rw [hctr, le128_incrementCounter]
    · rw [hbuf, if_pos hok, hctr]; rfl
    · rw [hbuf, hfail]; rfl
  · obtain hnone | ⟨n, -, -, -, hkey⟩ | ⟨w, rfl, hst, hw, hneed, -⟩ := exec_cipherLog h
    · simp [hnone] at hlog
    · simp [hkey] at hlog
    · exact ⟨hst, w, rfl, hw, hneed⟩

end Sys2Proof.Machine
end

section
/-! PROOFS of the encoding family (30_encoding.md): the decoder and the encoder as numbers, the words the opcode map spells,
the expansion of `LOADSEED`, and what a response may carry. -/

namespace Sys2Proof

/-- The opcode of a command (R75). -/
def Instr.opcode : Instr → Nat
  | .rst => 1
  | .seedw _ => 2
  | .init _ => 3
  | .nextbits _ => 4
  | .seedr _ => 5
  | .stat => 6
  | .ctrr _ => 7
  | .bufr _ => 8

/-- The operand of a command as a number, 0 where it has none (R76). -/
def Instr.operand : Instr → Nat
  | .rst | .stat => 0
  | .seedw k | .seedr k => k.toNat
  | .init n | .nextbits n => n.toNat
  | .ctrr k | .bufr k => k.toNat

/-- The command word is the opcode in the top digit and the operand below it (R82). -/
theorem encode_toNat (i : Instr) : (encode i).toNat = i.opcode * 2 ^ 28 + i.operand := by
  cases i with
  | rst | stat => rfl
  | seedw k | seedr k | init k | nextbits k | ctrr k | bufr k =>
    simp only [encode, Instr.opcode, Instr.operand]
    bv_omega

theorem Instr.operand_lt (i : Instr) : i.operand < 2 ^ 6 := by
  cases i with
  | rst | stat => decide
  | seedw k | seedr k | init k | nextbits k | ctrr k | bufr k => exact k.isLt.trans_le (by decide)

theorem idx3Field_toNat (c : Word) : (idx3Field c).toNat = c.toNat % 2 ^ 3 := BitVec.extractLsb'_toNat ..

theorem idx2Field_toNat (c : Word) : (idx2Field c).toNat = c.toNat % 2 ^ 2 := BitVec.extractLsb'_toNat ..

theorem val6Field_toNat (c : Word) : (val6Field c).toNat = c.toNat % 2 ^ 6 := BitVec.extractLsb'_toNat ..

/-- An opcode's words are its command's when what stands below the opcode fits in the operand field (R71 to R74). -/
theorem decodeReserved_eq_legal_iff {n : Nat} (hn : n ≤ 28) {mnemonic : String} {i j : Instr} {c : Word} :
    decodeReserved n mnemonic i c = .legal j ↔ c.toNat % 2 ^ 28 < 2 ^ n ∧ i = j := by
  rw [decodeReserved, ← reservedArea_eq_zero_iff hn]
  split_ifs with h <;> simp only [h, true_and, false_and, Decoded.legal.injEq]

/-- An opcode's words are illegal when what stands below the opcode does not fit (R77). -/
theorem instr?_decodeReserved_eq_none_iff {n : Nat} (hn : n ≤ 28) {mnemonic : String} {i : Instr} {c : Word} :
    (decodeReserved n mnemonic i c).instr? = none ↔ 2 ^ n ≤ c.toNat % 2 ^ 28 := by
  rw [decodeReserved, ← Nat.not_lt, ← reservedArea_eq_zero_iff hn]
  split_ifs with h <;> simp only [h, Decoded.instr?, not_true, not_false_eq_true, reduceCtorEq]

/-- The decoder reads back the encoding of a command (R82). -/
theorem decode_encode (i : Instr) : decode (encode i) = .legal i := by
  have henc := encode_toNat i
  have hlt := i.operand_lt
  have hop : (encode i).toNat / 2 ^ 28 = i.opcode := by omega
  have hlow : (encode i).toNat % 2 ^ 28 = i.operand := by omega
  rw [decode, opField_toNat, hop]
  cases i with
  | rst | stat => rfl
  | seedw k | seedr k | init k | nextbits k | ctrr k | bufr k =>
    refine (decodeReserved_eq_legal_iff (by decide)).mpr ⟨hlow.trans_lt k.isLt, congrArg _ ?_⟩
    refine BitVec.eq_of_toNat_eq ((BitVec.extractLsb'_toNat ..).trans ?_)
    simp only [Instr.operand] at hlow
    omega

/-- A word the decoder accepts is the encoding of what it reads (R82). -/
theorem encode_of_decode {c : Word} {i : Instr} (h : decode c = .legal i) : encode i = c := by
  apply BitVec.eq_of_toNat_eq
  rw [decode, opField_toNat] at h
  rw [encode_toNat]
  split at h
  case h_9 => cases h
  all_goals
    obtain ⟨hlow, rfl⟩ := (decodeReserved_eq_legal_iff (by decide)).mp h
    simp only [Instr.opcode, Instr.operand, idx3Field_toNat, idx2Field_toNat, val6Field_toNat]
    omega

/-- A command is well-formed at every value of its operand's type (R82). -/
theorem Instr.wellFormed_eq_true (i : Instr) : i.wellFormed = true := by
  cases i with
  | rst | stat => rfl
  | seedw k | seedr k | init k | nextbits k | ctrr k | bufr k => exact decide_eq_true k.isLt

/-- Settles O1: `decode_encode` and `encode_of_decode` are the two directions; the word of each command is read off
`encode_toNat`. -/
theorem decodeInvertsEncode : Obligations.DecodeInvertsEncode := by
  refine ⟨fun i => ⟨i.wellFormed_eq_true, decode_encode i⟩, fun c i => encode_of_decode, ⟨rfl, rfl⟩,
    fun k => ?_, fun n => ?_, fun k => ?_, by decide, by decide⟩
  all_goals
    simp only [encode_toNat, Instr.opcode, Instr.operand]
    omega

/-- The illegal words in numbers: a reserved opcode, or an operand that does not fit its field (R77). -/
theorem instr?_decode_eq_none_iff (c : Word) : (decode c).instr? = none ↔
    c.toNat / 2 ^ 28 = 0 ∨ 9 ≤ c.toNat / 2 ^ 28 ∨
    ((c.toNat / 2 ^ 28 = 1 ∨ c.toNat / 2 ^ 28 = 6) ∧ c.toNat % 2 ^ 28 ≠ 0) ∨
    ((c.toNat / 2 ^ 28 = 2 ∨ c.toNat / 2 ^ 28 = 5) ∧ 2 ^ 3 ≤ c.toNat % 2 ^ 28) ∨
    ((c.toNat / 2 ^ 28 = 3 ∨ c.toNat / 2 ^ 28 = 4) ∧ 2 ^ 6 ≤ c.toNat % 2 ^ 28) ∨
    ((c.toNat / 2 ^ 28 = 7 ∨ c.toNat / 2 ^ 28 = 8) ∧ 2 ^ 2 ≤ c.toNat % 2 ^ 28) := by
  rw [decode, opField_toNat]
  split
  case h_9 =>
    simp only [imp_false] at *
    simp only [Decoded.instr?, true_iff]
    omega
  all_goals
    rw [instr?_decodeReserved_eq_none_iff (by decide)]
    omega

/-- A line of the opcode map: its opcode, and how many bits its operand field has (R71 to R75). -/
structure OpcodeFormat where
  mnemonic : String
  op : Nat
  operandBits : Nat

/-- The row of a format: the opcode is matched, and the mask covers all but the operand field (R75). -/
def OpcodeFormat.row (f : OpcodeFormat) : OpcodeRow :=
  ⟨f.mnemonic, BitVec.ofNat 32 (f.op * 2 ^ 28), BitVec.allOnes 32 <<< f.operandBits⟩

/-- The eight formats, in the order of the opcode map (R75). -/
def opcodeFormats : List OpcodeFormat :=
  [⟨"RST", 1, 0⟩, ⟨"SEEDW", 2, 3⟩, ⟨"INIT", 3, 6⟩, ⟨"NEXTBITS", 4, 6⟩, ⟨"SEEDR", 5, 3⟩, ⟨"STAT", 6, 0⟩,
    ⟨"CTRR", 7, 2⟩, ⟨"BUFR", 8, 2⟩]

theorem opcodeMap_eq_map_row : opcodeMap = opcodeFormats.map OpcodeFormat.row := by decide

/-- Clearing the low `n` bits of a number leaves `op * 2 ^ 28` exactly when `op` stands above bit 28 and nothing between. -/
theorem div_mul_eq_mul_two_pow_iff {n : Nat} (hn : n ≤ 28) (c op : Nat) :
    c / 2 ^ n * 2 ^ n = op * 2 ^ 28 ↔ c / 2 ^ 28 = op ∧ c % 2 ^ 28 < 2 ^ n := by
  have hle : 2 ^ n ≤ 2 ^ 28 := Nat.pow_le_pow_right (by decide) hn
  have hmod : c % 2 ^ 28 % 2 ^ n = c % 2 ^ n := Nat.mod_mod_of_dvd c (Nat.pow_dvd_pow 2 hn)
  have hsplit := Nat.div_add_mod' c (2 ^ n)
  have hlt := Nat.mod_lt c (Nat.two_pow_pos n)
  constructor
  · intro h
    omega
  · rintro ⟨hop, hlow⟩
    rw [Nat.mod_eq_of_lt hlow] at hmod
    omega

/-- A row spells a word exactly when the opcode is the row's and what stands below it fits in the operand field (R75). -/
theorem OpcodeFormat.row_spells_iff {f : OpcodeFormat} (hop : f.op < 16) (hbits : f.operandBits ≤ 28) (c : Word) :
    f.row.spells c = true ↔ c.toNat / 2 ^ 28 = f.op ∧ c.toNat % 2 ^ 28 < 2 ^ f.operandBits := by
  have hmatch : f.op * 2 ^ 28 < 2 ^ 32 := by omega
  have hmasked : c.toNat / 2 ^ f.operandBits * 2 ^ f.operandBits < 2 ^ 32 := (Nat.div_mul_le_self ..).trans_lt c.isLt
  rw [OpcodeRow.spells, decide_eq_true_eq, OpcodeFormat.row, ← BitVec.shiftLeft_ushiftRight, ← BitVec.toNat_inj,
    BitVec.toNat_shiftLeft, BitVec.toNat_ushiftRight, BitVec.toNat_ofNat, Nat.shiftRight_eq_div_pow, Nat.shiftLeft_eq,
    Nat.mod_eq_of_lt hmatch, Nat.mod_eq_of_lt hmasked]
  exact div_mul_eq_mul_two_pow_iff hbits ..

/-- The words of no row are those of no opcode and operand. -/
theorem forall_spells_eq_false_iff (c : Word) : (∀ row ∈ opcodeMap, row.spells c = false) ↔
    ∀ f ∈ opcodeFormats, ¬(c.toNat / 2 ^ 28 = f.op ∧ c.toNat % 2 ^ 28 < 2 ^ f.operandBits) := by
  have hranges : ∀ f ∈ opcodeFormats, f.op < 16 ∧ f.operandBits ≤ 28 := by decide
  rw [opcodeMap_eq_map_row, List.forall_mem_map]
  refine forall₂_congr fun f hf => ?_
  obtain ⟨hop, hbits⟩ := hranges f hf
  rw [← OpcodeFormat.row_spells_iff hop hbits, Bool.not_eq_true]

/-- The decoder refuses exactly the words that match no row of the opcode map (R77). -/
theorem instr?_decode_eq_none_iff_forall_row (c : Word) :
    (decode c).instr? = none ↔ ∀ row ∈ opcodeMap, row.spells c = false := by
  rw [forall_spells_eq_false_iff, decode, opField_toNat]
  simp only [opcodeFormats, List.forall_mem_cons, List.not_mem_nil, false_imp_iff, implies_true, and_true]
  split
  case h_9 =>
    simp only [imp_false] at *
    simp only [Decoded.instr?, true_iff]
    omega
  all_goals
    next hop =>
      rw [instr?_decodeReserved_eq_none_iff (by decide), hop]
      omega

theorem Decoded.instr?_eq_none_iff (d : Decoded) : d.instr? = none ↔ ∃ why, d = .illegal why := by
  cases d <;> simp [Decoded.instr?]

/-- The word of `SEEDW k` as `LOADSEED` counts it (R81). -/
theorem encode_seedw_ofNat {k : Nat} (hk : k < 8) :
    encode (.seedw (BitVec.ofNat 3 k)) = 0x20000000#32 + BitVec.ofNat 32 k := by
  rw [encode]
  bv_omega

/-- The `SEEDW` commands of a seed, one for every four bytes, numbered from `k` (R81). -/
theorem seedWords_eq_map (k : Nat) (bytes : List Byte) :
    seedWords k bytes = (List.range (bytes.length / 4)).map fun j => ⟨0x20000000#32 + BitVec.ofNat 32 (k + j),
      packLanes (bytes.getD (4 * j) 0) (bytes.getD (4 * j + 1) 0) (bytes.getD (4 * j + 2) 0)
        (bytes.getD (4 * j + 3) 0)⟩ := by
  match bytes with
  | [] | [_] | [_, _] | [_, _, _] => simp [seedWords]
  | b0 :: b1 :: b2 :: b3 :: rest =>
    have hlen : (b0 :: b1 :: b2 :: b3 :: rest).length / 4 = rest.length / 4 + 1 := by
      simp only [List.length_cons]
      omega
    rw [hlen, List.range_succ_eq_map, List.map_cons, List.map_map, seedWords, seedWords_eq_map (k + 1) rest]
    refine congrArg (List.cons _) (List.map_congr_left fun j _ => ?_)
    rw [Nat.add_right_comm]
    rfl

/-- `LOADSEED` of a legal number of bytes assembles to the `SEEDW` commands of its words (R81). -/
theorem assemble_loadseed (bytes : List Byte) : assemble (.loadseed bytes) =
    if bytes.length % 4 = 0 ∧ 4 ≤ bytes.length ∧ bytes.length ≤ 32 then some (seedWords 0 bytes) else none := by
  simp only [assemble, AsmLine.wellFormed, decide_eq_true_eq]

/-- Settles O5: the commands are listed by `seedWords_eq_map`, and word `k` is below 8, so it fits in `idx3`. -/
theorem loadseedExpandsToSeedwCommands : Obligations.LoadseedExpandsToSeedwCommands := by
  refine ⟨fun bytes hmod hmin hmax => ⟨seedWords 0 bytes, ?_, ?_, fun k hk => ?_⟩, fun bytes hillegal => ?_, by decide⟩
  · rw [assemble_loadseed, if_pos ⟨hmod, hmin, hmax⟩]
  · rw [seedWords_eq_map, List.length_map, List.length_range]
  · rw [seedWords_eq_map, List.getElem?_map, List.getElem?_range hk, encode_seedw_ofNat (by omega), Option.map_some,
      Nat.zero_add]
  · rw [assemble_loadseed, if_neg hillegal]

end Sys2Proof

namespace Sys2Proof.Machine

open Sys2Proof.Safety

/-- Settles O3: the decoder's cases and the rows of the opcode map in numbers; an illegal word only records the error. -/
theorem illegalWordsChangeOnlyLasterr : Obligations.IllegalWordsChangeOnlyLasterr := by
  refine ⟨instr?_decode_eq_none_iff, instr?_decode_eq_none_iff_forall_row, by decide, fun r e s h => ?_⟩
  obtain ⟨why, hwhy⟩ := (Decoded.instr?_eq_none_iff _).mp h
  exact serve_of_illegal hwhy e s

/-- A well-formed word executes its command on the request as presented (R12). -/
theorem serve_of_legal {r : Request} {i : Instr} (h : decode r.cmd = .legal i) (e : Env) (s : State) :
    serve r e s = exec i (s.present r e) := by
  rw [serve, h]

/-- What a command answers: `rdata` 0, or `OK` with the data of a command that returns data (R78). -/
def CarriesDataOnlyWhenOk (i : Instr) (s t : State) : Prop :=
  (∃ st, t.response = some ⟨s.request.host, st, 0⟩) ∨
    (returnsData i = true ∧ ∃ v, t.response = some ⟨s.request.host, .ok, v⟩)

/-- `NEXTBITS` completes with bits under `OK` or with an error and none (R110, R120). -/
theorem exec_nextbits_carriesData (w : BitVec 6) (s : State) :
    ∃ t, exec (.nextbits w) s = .next t ∧ CarriesDataOnlyWhenOk (.nextbits w) s t := by
  cases hst : s.engine.state with
  | uninit => exact ⟨_, exec_nextbits_uninit w hst, .inl ⟨_, rfl⟩⟩
  | dead => exact ⟨_, exec_nextbits_dead w hst, .inl ⟨_, rfl⟩⟩
  | ready =>
    by_cases hw : w.toNat ≤ 32
    · by_cases hneed : s.engine.pop = false ∨ 13 ≤ s.engine.cur.toNat
      · rw [exec_nextbits_refresh hst hw hneed]
        cases henc : s.env.encOk with
        | true => exact ⟨_, refreshAndDeliver_ok _ _ s henc, .inr ⟨rfl, _, rfl⟩⟩
        | false => exact ⟨_, refreshAndDeliver_fail _ _ s henc, .inl ⟨_, rfl⟩⟩
      · rw [exec_nextbits_buffered hst hw hneed]
        exact ⟨_, deliverBits_inside _ s (by omega), .inr ⟨rfl, _, rfl⟩⟩
    · exact ⟨_, exec_nextbits_wide hst (by omega), .inl ⟨_, rfl⟩⟩

/-- `INIT` completes with `rdata` 0, whatever its checks find (R92, R164). -/
theorem exec_init_carriesData (n : BitVec 6) (s : State) :
    ∃ t, exec (.init n) s = .next t ∧ CarriesDataOnlyWhenOk (.init n) s t := by
  by_cases hst : s.engine.state = .uninit
  · by_cases hseed : SeedValidated n s.engine
    · refine ⟨_, exec_init_validated hst hseed, .inl ?_⟩
      cases s.env.kinitOk <;> exact ⟨_, rfl⟩
    · exact ⟨_, exec_init_invalid hst hseed, .inl ⟨_, rfl⟩⟩
  · exact ⟨_, exec_init_constructed n hst, .inl ⟨_, rfl⟩⟩

/-- `SEEDR` completes with a word of the seed or with an error and none (R140). -/
theorem exec_seedr_carriesData (k : BitVec 3) (s : State) :
    ∃ t, exec (.seedr k) s = .next t ∧ CarriesDataOnlyWhenOk (.seedr k) s t := by
  rw [exec, execSeedr]
  split_ifs
  · exact ⟨_, rfl, .inl ⟨_, rfl⟩⟩
  · exact ⟨_, rfl, .inl ⟨_, rfl⟩⟩
  · exact ⟨_, rfl, .inr ⟨rfl, _, rfl⟩⟩

/-- Every command completes, and answers its host with data only under `OK` (R78). -/
theorem exec_carriesData (i : Instr) (s : State) : ∃ t, exec i s = .next t ∧ CarriesDataOnlyWhenOk i s t := by
  cases i with
  | rst | seedw => exact ⟨_, rfl, .inl ⟨_, rfl⟩⟩
  | stat | ctrr | bufr => exact ⟨_, rfl, .inr ⟨rfl, _, rfl⟩⟩
  | init n => exact exec_init_carriesData n s
  | nextbits w => exact exec_nextbits_carriesData w s
  | seedr k => exact exec_seedr_carriesData k s

/-- No status has a code above 7, and code 0 is `OK` alone (R160). -/
theorem Status.code_range (st : Status) : st.code.toNat ≤ 7 ∧ (st.code = 0 ↔ st = .ok) := by
  cases st <;> decide

/-- Settles O46: a legal word by `exec_carriesData`; an illegal one answers `ERR_ILLEGAL` with `rdata` 0. -/
theorem responsesCarryDataOnlyWhenOk : Obligations.ResponsesCarryDataOnlyWhenOk := by
  intro r e s
  cases hdec : decode r.cmd with
  | illegal why =>
    exact ⟨_, _, _, serve_of_illegal hdec e s, rfl, (Status.code_range _).left, (Status.code_range _).right,
      fun hv => absurd rfl hv⟩
  | legal i =>
    obtain ⟨t, ht, hcarries⟩ := exec_carriesData i (s.present r e)
    rw [← serve_of_legal hdec] at ht
    obtain ⟨st, hresp⟩ | ⟨hdata, v, hresp⟩ := hcarries
    · exact ⟨t, st, 0, ht, hresp, (Status.code_range st).left, (Status.code_range st).right, fun hv => absurd rfl hv⟩
    · exact ⟨t, .ok, v, ht, hresp, (Status.code_range .ok).left, (Status.code_range .ok).right,
        fun _ => ⟨rfl, i, rfl, hdata⟩⟩

end Sys2Proof.Machine
end

section
/-! PROOFS of the life-cycle family (40_lifecycle.md): the grounds on which a command is refused, what each completed command
leaves of the life cycle, `RST`, `INIT` and the table of the three states. -/

namespace Sys2Proof

/-- The one well-formed word of `RST` (R90). -/
theorem decode_rst_word {c : Word} (hop : c.toNat / 2 ^ 28 = 1) (h : c.toNat % 2 ^ 28 = 0) : decode c = .legal .rst := by
  have hc : c = encode .rst := BitVec.eq_of_toNat_eq <| by
    rw [encode_toNat, Instr.opcode, Instr.operand]
    omega
  rw [hc, decode_encode]

/-- A word with the opcode of `RST` and anything below it is illegal (R77). -/
theorem decode_malformed_rst {c : Word} (hop : c.toNat / 2 ^ 28 = 1) (h : c.toNat % 2 ^ 28 ≠ 0) :
    decode c = .illegal (.reservedBits "RST") := by
  rw [decode, opField_toNat, hop]
  exact decodeReserved_malformed (by omega) _ _ (Nat.one_le_iff_ne_zero.mpr h)

end Sys2Proof

namespace Sys2Proof.Machine

open Sys2Proof.Safety

/-- The grounds on which a command is refused with no effect but the record of the error, each with its status (R164, R166):
every error but the `ERR_GEN` that leads to `DEAD`. -/
inductive RefusalGround (s : State) : Instr → Status → Prop
  | initAgain {n} (h : s.engine.state ≠ .uninit) : RefusalGround s (.init n) .errState
  | initSeed {n} (h : s.engine.state = .uninit) (hseed : ¬SeedValidated n s.engine) : RefusalGround s (.init n) .errSeed
  | initCipher {n} (h : s.engine.state = .uninit) (hseed : SeedValidated n s.engine) (hk : s.env.kinitOk = false) :
    RefusalGround s (.init n) .errCipherInit
  | nextbitsUninit {w} (h : s.engine.state = .uninit) : RefusalGround s (.nextbits w) .errState
  | nextbitsDead {w} (h : s.engine.state = .dead) : RefusalGround s (.nextbits w) .errGen
  | nextbitsWide {w} (h : s.engine.state = .ready) (hw : 32 < w.toNat) : RefusalGround s (.nextbits w) .errWidth
  | seedrUninit {k} (h : s.engine.state = .uninit) : RefusalGround s (.seedr k) .errState
  | seedrIndex {k} (h : s.engine.state ≠ .uninit) (hk : s.engine.klen.toNat / 4 ≤ k.toNat) :
    RefusalGround s (.seedr k) .errIndex

/-- The captured seed and its length, from which the key is read (R36), are the same in both engines. -/
def SameSeed (e f : Engine) : Prop := f.seed = e.seed ∧ f.klen = e.klen

/-- What a command that completes with a status leaves of the life cycle: the transitions of R97, a refusal, or a command
served in the state it found. -/
inductive Completion (s t : State) : Instr → Status → Prop
  | reset (ht : t.engine = Engine.reset) : Completion s t .rst .ok
  | constructed {n} (h : s.engine.state = .uninit) (ht : t.engine = constructed n s.engine) : Completion s t (.init n) .ok
  | ended {w} (h : s.engine.state = .ready) (ht : t.engine.state = .dead) (hseed : SameSeed s.engine t.engine) :
    Completion s t (.nextbits w) .errGen
  | refused {i st} (h : RefusalGround s i st) (ht : t.engine = withLasterr st s.engine) : Completion s t i st
  | served {i} (hrst : i ≠ .rst) (hinit : ∀ n, i ≠ .init n) (ht : t.engine.state = s.engine.state)
    (hseed : SameSeed s.engine t.engine) : Completion s t i .ok

/-- The command answers its host and is one of the completions. -/
def Completes (i : Instr) (s : State) : Prop :=
  ∃ t st v, exec i s = .next t ∧ t.response = some ⟨s.request.host, st, v⟩ ∧ Completion s t i st

/-- A validated `INIT` that the cipher core accepts captures the seed and is `READY` (R92). -/
theorem exec_init_accepted {n : BitVec 6} {s : State} (h : s.engine.state = .uninit)
    (hseed : SeedValidated n s.engine) (hk : s.env.kinitOk = true) : exec (.init n) s = .next (respond 0
      ((s.logTxn (.key n.toNat (s.engine.seedin.toList.take n.toNat) true)).withEngine (constructed n s.engine))) := by
  rw [exec_init_validated h hseed, hk]; rfl

/-- A validated `INIT` that the cipher core refuses is refused (R168). -/
theorem exec_init_cipherRefused {n : BitVec 6} {s : State} (h : s.engine.state = .uninit)
    (hseed : SeedValidated n s.engine) (hk : s.env.kinitOk = false) : exec (.init n) s = .next
      (raise .errCipherInit (s.logTxn (.key n.toNat (s.engine.seedin.toList.take n.toNat) false))) := by
  rw [exec_init_validated h hseed, hk]; rfl

/-- A ground for refusal on which the command raises its error, at most a transaction after it began. -/
theorem completes_of_refusalGround {i : Instr} {s u : State} {st : Status} (h : RefusalGround s i st)
    (hexec : exec i s = .next (raise st u)) (heng : u.engine = s.engine := by rfl)
    (hreq : u.request = s.request := by rfl) : Completes i s :=
  ⟨_, st, 0, hexec, by rw [raise_response, hreq], .refused h (by rw [raise_engine, heng]; rfl)⟩

theorem init_completes (n : BitVec 6) (s : State) : Completes (.init n) s := by
  by_cases hst : s.engine.state = .uninit
  · by_cases hseed : SeedValidated n s.engine
    · cases hk : s.env.kinitOk with
      | true => exact ⟨_, _, _, exec_init_accepted hst hseed hk, rfl, .constructed hst rfl⟩
      | false => exact completes_of_refusalGround (.initCipher hst hseed hk) (exec_init_cipherRefused hst hseed hk)
    · exact completes_of_refusalGround (.initSeed hst hseed) (exec_init_invalid hst hseed)
  · exact completes_of_refusalGround (.initAgain hst) (exec_init_constructed n hst)

theorem nextbits_completes (w : BitVec 6) (s : State) : Completes (.nextbits w) s := by
  cases hst : s.engine.state with
  | uninit => exact completes_of_refusalGround (.nextbitsUninit hst) (exec_nextbits_uninit w hst)
  | dead => exact completes_of_refusalGround (.nextbitsDead hst) (exec_nextbits_dead w hst)
  | ready =>
    by_cases hw : w.toNat ≤ 32
    · by_cases hneed : s.engine.pop = false ∨ 13 ≤ s.engine.cur.toNat
      · rw [Completes, exec_nextbits_refresh hst hw hneed]
        cases henc : s.env.encOk with
        | true =>
          exact ⟨_, _, _, refreshAndDeliver_ok _ _ s henc, rfl, .served nofun nofun rfl ⟨rfl, rfl⟩⟩
        | false => exact ⟨_, _, _, refreshAndDeliver_fail _ _ s henc, rfl, .ended hst rfl ⟨rfl, rfl⟩⟩
      · rw [Completes, exec_nextbits_buffered hst hw hneed]
        exact ⟨_, _, _, deliverBits_inside _ s (by omega), rfl, .served nofun nofun rfl ⟨rfl, rfl⟩⟩
    · have hwide : 32 < w.toNat := by omega
      exact completes_of_refusalGround (.nextbitsWide hst hwide) (exec_nextbits_wide hst hwide)

theorem seedr_completes (k : BitVec 3) (s : State) : Completes (.seedr k) s := by
  by_cases hst : s.engine.state = .uninit
  · exact completes_of_refusalGround (.seedrUninit hst) (by rw [exec, execSeedr, if_pos hst])
  · by_cases hk : k.toNat < s.engine.klen.toNat / 4
    · exact ⟨_, _, _, exec_seedr_inside hst hk, rfl, .served nofun nofun rfl ⟨rfl, rfl⟩⟩
    · have hindex := Nat.not_lt.mp hk
      exact completes_of_refusalGround (.seedrIndex hst hindex)
        (by rw [exec, execSeedr, if_neg hst, if_pos hindex])

/-- Every command completes in one of the ways of `Completion`. -/
theorem exec_completes (i : Instr) (s : State) : Completes i s := by
  cases i with
  | rst => exact ⟨_, _, _, exec_rst s, rfl, .reset rfl⟩
  | seedw | stat | ctrr | bufr => exact ⟨_, _, _, rfl, rfl, .served nofun nofun rfl ⟨rfl, rfl⟩⟩
  | init n => exact init_completes n s
  | nextbits w => exact nextbits_completes w s
  | seedr k => exact seedr_completes k s

/-- What a completed command answered says how it completed. -/
theorem completion_of_response {i : Instr} {s t : State} {st : Status} {v : Word} (h : exec i s = .next t)
    (hresp : t.response = some ⟨s.request.host, st, v⟩) : Completion s t i st := by
  obtain ⟨u, st', v', hu, huresp, hcompletion⟩ := exec_completes i s
  obtain rfl := Host.Outcome.next.inj (hu.symm.trans h)
  rw [hresp] at huresp
  cases huresp
  exact hcompletion

/-- `ERR_SEED` is the answer to an `INIT` whose seed is not validated, and to nothing else (R167). -/
theorem Completion.of_errSeed {s t : State} {i : Instr} (h : Completion s t i .errSeed) :
    s.engine.state = .uninit ∧ ∃ n, i = .init n ∧ ¬SeedValidated n s.engine := by
  cases h with
  | refused hground =>
    cases hground with
    | initSeed hst hseed => exact ⟨hst, _, rfl, hseed⟩

/-- An `INIT` succeeds, or is refused with one of its three errors (R95). -/
theorem Completion.of_init {s t : State} {n : BitVec 6} {st : Status} (h : Completion s t (.init n) st) :
    st = .ok ∨ (st = .errState ∨ st = .errSeed ∨ st = .errCipherInit) ∧ t.engine = withLasterr st s.engine := by
  cases h with
  | constructed => exact .inl rfl
  | served _ hinit => exact absurd rfl (hinit n)
  | refused hground ht => refine .inr ⟨?_, ht⟩; cases hground <;> simp

/-- Outside `UNINIT` the captured seed and its length stay, and `UNINIT` is not reached, under
every command but `RST` (R96). -/
theorem Completion.keeps_instance {s t : State} {i : Instr} {st : Status} (h : Completion s t i st)
    (hst : s.engine.state ≠ .uninit) (hrst : i ≠ .rst) : SameSeed s.engine t.engine ∧ t.engine.state ≠ .uninit := by
  cases h with
  | reset => exact absurd rfl hrst
  | constructed huninit => exact absurd huninit hst
  | ended _ ht hseed => exact ⟨hseed, by rw [ht]; decide⟩
  | refused _ ht => rw [ht]; exact ⟨⟨rfl, rfl⟩, hst⟩
  | served _ _ ht hseed => exact ⟨hseed, by rwa [ht]⟩

/-- Every request is answered: an illegal word by the record of `ERR_ILLEGAL`, a command by one of its completions (R12). -/
theorem serve_completes (r : Request) (e : Env) (s : State) : ∃ t st v, serve r e s = .next t ∧
    t.response = some ⟨r.host, st, v⟩ ∧
    ((∃ why, decode r.cmd = .illegal why) ∧ st = .errIllegal ∧ t.engine = withLasterr .errIllegal s.engine ∨
      ∃ i, decode r.cmd = .legal i ∧ Completion (s.present r e) t i st) := by
  cases hdec : decode r.cmd with
  | illegal why => exact ⟨_, _, _, serve_of_illegal hdec e s, rfl, .inl ⟨⟨why, rfl⟩, rfl, rfl⟩⟩
  | legal i =>
    obtain ⟨t, st, v, ht, hresp, hcompletion⟩ := exec_completes i (s.present r e)
    exact ⟨t, st, v, (serve_of_legal hdec e s).trans ht, hresp, .inr ⟨i, rfl, hcompletion⟩⟩

/-- Outside `UNINIT` the captured seed and its length stay, and `UNINIT` is not reached, under
every word but a well-formed `RST` (R96). -/
theorem serve_keeps_instance {r : Request} {e : Env} {s t : State} (h : serve r e s = .next t)
    (hst : s.engine.state ≠ .uninit) (hrst : isRst r = false) :
    SameSeed s.engine t.engine ∧ t.engine.state ≠ .uninit := by
  obtain ⟨u, st, v, hu, -, ⟨-, -, heng⟩ | ⟨i, hdec, hcompletion⟩⟩ := serve_completes r e s
  all_goals obtain rfl := Host.Outcome.next.inj (hu.symm.trans h)
  · rw [heng]; exact ⟨⟨rfl, rfl⟩, hst⟩
  · refine hcompletion.keeps_instance hst fun hi => ?_
    rw [isRst, hdec, hi, decide_eq_false_iff_not] at hrst
    exact hrst rfl

/-- A key is loaded in `UNINIT` only (R61, R96). -/
theorem uninit_of_serve_loads_key {r : Request} {e : Env} {s t : State} {n : Nat} {bytes : List Byte} {ok : Bool}
    (h : serve r e s = .next t) (hlog : t.cipherLog = s.cipherLog ++ [.key n bytes ok]) : s.engine.state = .uninit := by
  obtain ⟨-, hkey⟩ := cipherKeyOncePerValidatedInit
  cases hdec : decode r.cmd with
  | illegal why => simp [cipherLog_of_next h (serve_of_illegal hdec e s) rfl, refusedWith] at hlog
  | legal i =>
    rw [serve_of_legal hdec] at h
    obtain ⟨-, -, -, huninit, -⟩ := hkey i _ t n bytes ok h hlog
    exact huninit

/-- `INIT` answers alike in two states that differ in nothing it checks (R92, R164). -/
theorem exec_init_response_congr (m : BitVec 6) {s t : State} (hstate : t.engine.state = s.engine.state)
    (hsval : t.engine.sval = s.engine.sval) (henv : t.env = s.env) (hreq : t.request = s.request) :
    ∃ u x, exec (.init m) s = .next u ∧ exec (.init m) t = .next x ∧ u.response = x.response := by
  have hvalid : SeedValidated m t.engine ↔ SeedValidated m s.engine := by rw [SeedValidated, SeedValidated, hsval]
  by_cases hst : s.engine.state = .uninit
  · have hst' := hstate.trans hst
    by_cases hseed : SeedValidated m s.engine
    · refine ⟨_, _, exec_init_validated hst hseed, exec_init_validated hst' (hvalid.mpr hseed), ?_⟩
      cases hk : s.env.kinitOk <;> simp [henv, hk, hreq]
    · exact ⟨_, _, exec_init_invalid hst hseed, exec_init_invalid hst' (mt hvalid.mp hseed), by simp [hreq]⟩
  · exact ⟨_, _, exec_init_constructed m hst, exec_init_constructed m (hstate ▸ hst), by simp [hreq]⟩

/-- Settles O26: `RST` puts the reset engine; its malformed words are illegal; no other word leads to `UNINIT`. -/
theorem rstRestoresTheResetState : Obligations.RstRestoresTheResetState := by
  refine ⟨exec_rst, fun r e s hop => ⟨fun h => serve_of_legal (decode_rst_word hop h) e s,
    fun h => serve_of_illegal (decode_malformed_rst hop h) e s⟩, fun r e s t h hst huninit => ?_⟩
  by_contra hrst
  obtain ⟨-, hconstructed⟩ := serve_keeps_instance h hst (eq_false_of_ne_true hrst)
  exact hconstructed huninit

/-- Settles O29: the checks of `INIT` on the seed are `SeedValidated`, and no other ground has the status `ERR_SEED`. -/
theorem initValidatesTheSeed : Obligations.InitValidatesTheSeed := by
  refine ⟨fun n s hst hseed => exec_init_invalid hst hseed, fun i s t v h hresp => ?_,
    fun n s hst hlen hstaged hk => ⟨_, exec_init_cipherRefused hst ⟨hlen, hstaged⟩ hk, rfl⟩⟩
  obtain ⟨hst, n, hi, hseed⟩ := (completion_of_response h hresp).of_errSeed
  refine ⟨hst, n, hi, ?_⟩
  simpa only [SeedValidated, not_and_or, not_or, not_forall, Bool.not_eq_true, exists_prop] using hseed

/-- Settles O31: a failed `INIT` is a refusal, and no later `INIT` reads the `LASTERR` it left. -/
theorem failedInitConstructsNothing : Obligations.FailedInitConstructsNothing := by
  intro n s
  obtain ⟨t, ht, ⟨st, hresp⟩ | ⟨hdata, -⟩⟩ := exec_init_carriesData n s
  · refine ⟨t, st, ht, hresp, (completion_of_response ht hresp).of_init.imp_right fun ⟨hst, heng⟩ =>
      ⟨hst, heng, fun m r e hcmd => ?_⟩⟩
    have hdec : decode r.cmd = .legal (.init m) := hcmd ▸ decode_encode _
    rw [serve_of_legal hdec, serve_of_legal hdec]
    exact exec_init_response_congr m (by simp [heng, withLasterr]) (by simp [heng, withLasterr]) rfl rfl
  · cases hdata

/-- Settles O32: a second `INIT` is refused; the captured seed stays, and only `UNINIT` loads a key. -/
theorem seedAndKeyLastTheInstance : Obligations.SeedAndKeyLastTheInstance := by
  refine ⟨fun n s hst => exec_init_constructed n hst, fun r e s hst hrst => ?_⟩
  obtain ⟨t, -, -, ht, -⟩ := serve_completes r e s
  obtain ⟨⟨hseed, hklen⟩, hconstructed⟩ := serve_keeps_instance ht hst hrst
  exact ⟨t, ht, hseed, hklen, hconstructed, fun n bytes ok hlog => hst (uninit_of_serve_loads_key ht hlog)⟩

/-- A completion is one of the command transitions of the table, or it keeps `STATE` and is not listed there (R97). -/
theorem Completion.transition {s t : State} {i : Instr} {st : Status} (h : Completion s t i st) :
    (∃ n, i = .init n ∧ s.engine.state = .uninit ∧ st = .ok ∧ t.engine.state = .ready) ∨
    (i = .rst ∧ t.engine.state = .uninit) ∨
    (∃ w, i = .nextbits w ∧ s.engine.state = .ready ∧ st = .errGen ∧ t.engine.state = .dead) ∨
    (t.engine.state = s.engine.state ∧ i ≠ .rst ∧ ¬(∃ n, i = .init n ∧ st = .ok) ∧
      ¬(s.engine.state = .ready ∧ st = .errGen)) := by
  cases h with
  | constructed hst ht => exact .inl ⟨_, rfl, hst, rfl, by rw [ht]; rfl⟩
  | reset ht => exact .inr (.inl ⟨rfl, by rw [ht]; rfl⟩)
  | ended hst ht => exact .inr (.inr (.inl ⟨_, rfl, hst, rfl, ht⟩))
  | refused hground ht =>
    refine .inr (.inr (.inr ⟨by rw [ht]; rfl, ?_⟩))
    cases hground <;> simp [*]
  | served hrst hinit ht =>
    exact .inr (.inr (.inr ⟨ht, hrst, fun ⟨n, hn, _⟩ => hinit n hn, by simp⟩))

/-- Settles O33: the hardware reset gives `UNINIT`, and each completion is a line of the table or keeps `STATE`. -/
theorem lifeCycleTableIsComplete : Obligations.LifeCycleTableIsComplete := by
  refine ⟨fun s h => ⟨_, step_of_hardReset h, rfl⟩, fun r e s => ?_⟩
  obtain ⟨t, st, v, ht, hresp, ⟨⟨why, hdec⟩, rfl, heng⟩ | ⟨i, hdec, hcompletion⟩⟩ := serve_completes r e s
  · exact ⟨t, _, v, ht, hresp, .inr (.inr (.inr (by simp [heng, hdec, withLasterr])))⟩
  · refine ⟨t, st, v, ht, hresp, ?_⟩
    simpa only [hdec, ne_eq, Decoded.legal.injEq, State.present_engine] using hcompletion.transition

end Sys2Proof.Machine
end

section
/-! PROOFS of the generation family (41_generation.md): the counter byte by byte, the alignment of the bits, what
`NEXTBITS` can do, the first block, and the keystream over a run of commands. -/

namespace Sys2Proof.Machine

open Sys2Proof.Safety

/-- The carry leaves a byte exactly when it is 255 (R112). -/
theorem rippleCarry_cons (b : Byte) (bs : List Byte) :
    rippleCarry (b :: bs) = (b + 1) :: if b = 255#8 then rippleCarry bs else bs := by
  have hwrap : b + 1 ≠ 0 ↔ ¬b = 255#8 := by bv_omega
  rw [rippleCarry, if_congr hwrap rfl rfl, ite_not, apply_ite (List.cons (b + 1))]

/-- Byte `i` of a ripple carry moves exactly when every byte below it is 255 (R112). -/
theorem rippleCarry_getElem? (bs : List Byte) (i : Nat) :
    (rippleCarry bs)[i]? = bs[i]?.map fun b => if ∀ x ∈ bs.take i, x = 255#8 then b + 1 else b := by
  induction bs generalizing i with
  | nil => rfl
  | cons b bs ih =>
    rw [rippleCarry_cons]
    cases i with
    | zero => simp
    | succ i => by_cases hb : b = 255#8 <;> simp [hb, ih]

/-- The bytewise form of the counter increment (R112). -/
theorem incrementCounter_getElem (a : Block) (i : Fin 16) : (incrementCounter a)[i] =
    if ∀ j : Fin 16, j < i → a[j] = 255 then a[i] + 1 else a[i] := by
  have hbyte := rippleCarry_getElem? a.toList i.val
  have hbelow : (∀ x ∈ a.toList.take i.val, x = 255#8) ↔ ∀ j : Fin 16, j < i → a[j] = 255 := by
    simp only [List.forall_mem_iff_getElem, List.length_take, Vector.length_toList, List.getElem_take,
      Vector.getElem_toList]
    exact ⟨fun h j hj => h j.val (by omega), fun h j hj => h ⟨j, by omega⟩ (show j < i.val by omega)⟩
  rw [List.getElem?_eq_getElem (by simp [rippleCarry_length]), List.getElem?_eq_getElem (by simp), Option.map_some,
    Option.some_inj, if_congr hbelow rfl rfl] at hbyte
  exact hbyte

/-- Alignment is the quotient by the bits discarded (R116). -/
theorem alignBits_toNat (word : Word) (w : Nat) : (alignBits word w).toNat = word.toNat / 2 ^ (32 - w) := by
  rw [alignBits, BitVec.toNat_ushiftRight, Nat.shiftRight_eq_div_pow]

/-- Bit `i` of the aligned word is bit `32 - w + i` of the word, and above the width there is nothing (R116). -/
theorem alignBits_getLsbD (word : Word) {w : Nat} (hw : w ≤ 32) (i : Nat) :
    (alignBits word w).getLsbD i = (decide (i < w) && word.getLsbD (32 - w + i)) := by
  rw [alignBits, BitVec.getLsbD_ushiftRight]
  by_cases hi : i < w
  · simp [hi]
  · simp [hi, BitVec.getLsbD_of_ge word (32 - w + i) (by omega)]

/-- A width of 0 shifts every bit out (R117). -/
@[simp] theorem alignBits_zero (word : Word) : alignBits word 0 = 0 :=
  BitVec.eq_of_toNat_eq <| by rw [alignBits_toNat]; exact Nat.div_eq_of_lt word.isLt

/-- A width of 1 leaves the most significant bit (R116). -/
theorem alignBits_one (word : Word) : alignBits word 1 = (BitVec.ofBool word.msb).setWidth 32 := by
  refine BitVec.eq_of_getLsbD_eq fun i hi => ?_
  rw [alignBits_getLsbD word (by decide), BitVec.msb_eq_getLsbD_last]
  cases i <;> simp

/-- Settles O17: the quotient, the bits and the three particular widths are the lemmas on `alignBits`. -/
theorem alignBitsTakesTheTopBits : Obligations.AlignBitsTakesTheTopBits :=
  ⟨fun word w _ => alignBits_toNat word w, fun word _ i hw => alignBits_getLsbD word hw i,
    fun word => ⟨BitVec.ushiftRight_zero word, alignBits_zero word, alignBits_one word⟩, by decide⟩

/-- Aligned bits fit in the width (R119). -/
theorem alignBits_le (word : Word) {w : Nat} (hw : w ≤ 32) : (alignBits word w).toNat ≤ 2 ^ w - 1 := by
  refine Nat.le_sub_one_of_lt ?_
  rw [alignBits_toNat, Nat.div_lt_iff_lt_mul (by positivity), ← Nat.pow_add, Nat.add_sub_cancel' hw]
  exact word.isLt

/-- Settles O15: both refusals are taken before the width is looked at. -/
theorem nextbitsOutsideReady : Obligations.NextbitsOutsideReady :=
  ⟨fun w _ => exec_nextbits_uninit w, fun w _ => exec_nextbits_dead w⟩

/-- Settles O16: the counter is incremented before the cipher core fails. -/
theorem nextbitsCipherFailureEndsInstance : Obligations.NextbitsCipherFailureEndsInstance :=
  fun w s hready hw hneed henc => ⟨_, le128_incrementCounter _,
    (exec_nextbits_refresh hready hw hneed).trans (refreshAndDeliver_fail Config.cipher w.toNat s henc)⟩

/-- Settles O14: `ERR_WIDTH` stands on one ground of refusal only; a word of width 64 or more is illegal. -/
theorem nextbitsRefusesWideWidths : Obligations.NextbitsRefusesWideWidths := by
  refine ⟨fun w s => exec_nextbits_wide, fun i s t v h hresp => ?_, fun r e s hop hbits => ?_⟩
  · cases completion_of_response h hresp with
    | refused hground =>
      cases hground with
      | nextbitsWide hready hw => exact ⟨hready, _, rfl, hw⟩
  · obtain ⟨-, -, -, hillegal⟩ := illegalWordsChangeOnlyLasterr
    exact hillegal r e s ((instr?_decode_eq_none_iff r.cmd).mpr (by omega))

/-- Settles O11: a refresh issues its one transaction, a delivery from the buffer none; the cursors of R37 are
multiples of 4. -/
theorem nextbitsRefreshesExactlyWhenNeeded : Obligations.NextbitsRefreshesExactlyWhenNeeded := by
  refine ⟨refreshNeeded_iff, fun w s hready hw => ?_, fun s hinv => ?_⟩
  · have hneed : s.engine.pop = false ∨ (16 : Int) - s.engine.cur.toNat < 4 ↔
        s.engine.pop = false ∨ 13 ≤ s.engine.cur.toNat := or_congr_right (by omega)
    rw [hneed]
    by_cases h : s.engine.pop = false ∨ 13 ≤ s.engine.cur.toNat
    · obtain ⟨t, ht, -, hlog, -⟩ := refreshAndDeliver_issues Config.cipher w.toNat s
      exact ⟨t, (exec_nextbits_refresh hready hw h).trans ht, fun _ => ⟨_, _, hlog⟩, absurd h⟩
    · exact ⟨_, (exec_nextbits_buffered hready hw h).trans (deliverBits_inside _ s (by omega)), fun h' => absurd h' h,
        fun _ => ⟨rfl, rfl, rfl⟩⟩
  · rw [refreshNeeded_iff]
    refine or_congr_right ?_
    obtain h | h | h | h | h := hinv.left.cursor <;> rw [h] <;> decide

/-- Settles O10: the increment by bytes and as an integer; the command that meets the wrap is a refresh as any other. -/
theorem incrementCounterAddsOne : Obligations.IncrementCounterAddsOne := by
  refine ⟨incrementCounter_getElem, le128_incrementCounter, fun w s hready hw hneed henc hctr => ?_⟩
  have hwrap : incrementCounter s.engine.ctr = Vector.replicate 16 0 := by rw [hctr]; decide
  exact ⟨_, _, (exec_nextbits_refresh hready hw hneed).trans (refreshAndDeliver_ok _ _ s henc), hwrap, rfl, rfl,
    hready⟩

/-- The engine as a `NEXTBITS` reads its word from it: with the next block in the buffer if one is needed and the cipher
core delivers it, else as it is (R111, R114). -/
def Engine.supplied (e : Engine) : Engine :=
  if refreshNeeded e.pop e.cur then
    { e with
      ctr := incrementCounter e.ctr
      buf := Config.cipher e.klen.toNat e.key (incrementCounter e.ctr)
      cur := 0
      pop := true }
  else e

theorem Engine.supplied_state (e : Engine) : e.supplied.state = e.state := by
  rw [Engine.supplied]
  split_ifs <;> rfl

/-- The transaction that supplies the engine, if one is needed (R62). -/
def Engine.supplyTxns (e : Engine) : List CipherTxn :=
  if refreshNeeded e.pop e.cur then [.enc (incrementCounter e.ctr) true] else []

/-- In a supplied engine a whole word is left at the cursor (R38, R115). -/
theorem Engine.supplied_cur_le (e : Engine) : e.supplied.cur.toNat + 4 ≤ 16 := by
  rw [Engine.supplied]
  split_ifs with h
  · exact Nat.le_add_left ..
  · have := mt (refreshNeeded_iff _ _).mpr h
    omega

/-- The word `NEXTBITS` takes its bits from: the four bytes at the cursor of the supplied engine (R115). -/
def Engine.nextWord (e : Engine) : Word := (readBufWord e.supplied.buf e.supplied.cur.toNat).getD 0

/-- The machine after a `NEXTBITS` of width `w` that returned bits (R110). -/
def afterDelivery (w : BitVec 6) (s : State) : State :=
  answeredWith (alignBits s.engine.nextWord w.toNat)
    { s with
      engine := { s.engine.supplied with cur := s.engine.supplied.cur + 4 }
      cipherLog := s.cipherLog ++ s.engine.supplyTxns }

@[simp] theorem afterDelivery_state (w : BitVec 6) (s : State) : (afterDelivery w s).engine.state = s.engine.state :=
  s.engine.supplied_state

/-- The machine after a `NEXTBITS` whose refresh failed (R120). -/
def afterFailedRefresh (s : State) : State :=
  { s with
    engine := { s.engine with ctr := incrementCounter s.engine.ctr, state := .dead, lasterr := .errGen }
    response := some ⟨s.request.host, .errGen, 0⟩
    cipherLog := s.cipherLog ++ [.enc (incrementCounter s.engine.ctr) false] }

/-- Whether the cipher core supplies the block a `NEXTBITS` needs, if it needs one (R113). -/
def Supplies (s : State) : Prop := refreshNeeded s.engine.pop s.engine.cur = true → s.env.encOk = true

/-- An accepted `NEXTBITS` delivers, from the buffer or from the block it is supplied with (R110). -/
theorem exec_nextbits_delivers {w : BitVec 6} {s : State} (hready : s.engine.state = .ready) (hw : w.toNat ≤ 32)
    (hsupply : Supplies s) : exec (.nextbits w) s = .next (afterDelivery w s) := by
  rw [exec_nextbits_accepted hready hw, afterDelivery, Engine.nextWord, readBufWord_inside _ _ s.engine.supplied_cur_le]
  by_cases hneed : refreshNeeded s.engine.pop s.engine.cur = true
  · rw [if_pos hneed, refreshAndDeliver_ok _ _ s (hsupply hneed)]
    simp [answeredWith, Engine.supplied, Engine.supplyTxns, hneed]
  · have hfull := mt (refreshNeeded_iff _ _).mpr hneed
    rw [if_neg hneed, deliverBits_inside _ s (by omega)]
    simp [answeredWith, Engine.supplied, Engine.supplyTxns, hneed, respond_eq, State.withEngine]

/-- An accepted `NEXTBITS` that is not supplied ends in `DEAD` (R120). -/
theorem exec_nextbits_ends {w : BitVec 6} {s : State} (hready : s.engine.state = .ready) (hw : w.toNat ≤ 32)
    (hsupply : ¬Supplies s) : exec (.nextbits w) s = .next (afterFailedRefresh s) := by
  obtain ⟨hneed, henc⟩ := Classical.not_imp.mp hsupply
  rw [exec_nextbits_accepted hready hw, if_pos hneed]
  exact refreshAndDeliver_fail _ _ s (eq_false_of_ne_true henc)

/-- What `NEXTBITS` can do: be refused, end in `DEAD`, deliver bits (R110). -/
inductive NextbitsOutcome (w : BitVec 6) (s : State) : State → Prop
  | refused {st} (h : RefusalGround s (.nextbits w) st) : NextbitsOutcome w s (refusedWith st s)
  | ended : NextbitsOutcome w s (afterFailedRefresh s)
  | delivered (hready : s.engine.state = .ready) (hw : w.toNat ≤ 32) : NextbitsOutcome w s (afterDelivery w s)

/-- Every `NEXTBITS` has one of the three outcomes. -/
theorem exec_nextbits_outcome (w : BitVec 6) (s : State) :
    ∃ t, exec (.nextbits w) s = .next t ∧ NextbitsOutcome w s t := by
  cases hst : s.engine.state with
  | uninit => exact ⟨_, exec_nextbits_uninit w hst, .refused (.nextbitsUninit hst)⟩
  | dead => exact ⟨_, exec_nextbits_dead w hst, .refused (.nextbitsDead hst)⟩
  | ready =>
    by_cases hw : w.toNat ≤ 32
    · by_cases hsupply : Supplies s
      · exact ⟨_, exec_nextbits_delivers hst hw hsupply, .delivered hst hw⟩
      · exact ⟨_, exec_nextbits_ends hst hw hsupply, .ended⟩
    · have hwide : 32 < w.toNat := by omega
      exact ⟨_, exec_nextbits_wide hst hwide, .refused (.nextbitsWide hst hwide)⟩

/-- A refusal is an error (R160). -/
theorem RefusalGround.ne_ok {s : State} {i : Instr} {st : Status} (h : RefusalGround s i st) : st ≠ .ok := by
  cases h <;> decide

/-- Settles O18: only a delivery answers `OK`, with aligned bits. -/
theorem nextbitsResultInRange : Obligations.NextbitsResultInRange := by
  intro w s t v h hresp
  obtain ⟨u, hu, houtcome⟩ := exec_nextbits_outcome w s
  obtain rfl := Host.Outcome.next.inj (hu.symm.trans h)
  cases houtcome with
  | refused hground => cases hresp; exact absurd rfl hground.ne_ok
  | ended => cases hresp
  | delivered _ hw => cases hresp; exact ⟨hw, alignBits_le _ hw⟩

/-- Settles O19: which outcome a `NEXTBITS` has does not depend on the width, if it is accepted; at width 0 every bit of
the word is shifted out. -/
theorem widthZeroConsumesAndReturnsZero : Obligations.WidthZeroConsumesAndReturnsZero := by
  intro w s hw
  cases hst : s.engine.state with
  | uninit => exact ⟨_, _, _, _, exec_nextbits_uninit 0 hst, exec_nextbits_uninit w hst, rfl, rfl, rfl, rfl, nofun⟩
  | dead => exact ⟨_, _, _, _, exec_nextbits_dead 0 hst, exec_nextbits_dead w hst, rfl, rfl, rfl, rfl, nofun⟩
  | ready =>
    by_cases hsupply : Supplies s
    · refine ⟨_, _, .ok, _, exec_nextbits_delivers hst (Nat.zero_le _) hsupply, exec_nextbits_delivers hst hw hsupply,
        rfl, rfl, ?_, rfl, fun _ _ => rfl⟩
      exact congrArg (fun v => some (Response.mk s.request.host .ok v)) (alignBits_zero _)
    · exact ⟨_, _, _, _, exec_nextbits_ends hst (Nat.zero_le _) hsupply, exec_nextbits_ends hst hw hsupply,
        rfl, rfl, rfl, rfl, fun _ henc => absurd (fun _ => henc) hsupply⟩

/-- An `INIT` that answered `OK` was validated and accepted by the cipher core (R92). -/
theorem exec_init_of_ok {n : BitVec 6} {s t : State} {v : Word} (h : exec (.init n) s = .next t)
    (hresp : t.response = some ⟨s.request.host, .ok, v⟩) : t = respond 0
      ((s.logTxn (.key n.toNat (s.engine.seedin.toList.take n.toNat) true)).withEngine (constructed n s.engine)) := by
  have hnext {u : State} (hu : exec (.init n) s = .next u) : u = t := Host.Outcome.next.inj (hu.symm.trans h)
  by_cases hst : s.engine.state = .uninit
  · by_cases hseed : SeedValidated n s.engine
    · cases hk : s.env.kinitOk with
      | true => exact (hnext (exec_init_accepted hst hseed hk)).symm
      | false => cases hnext (exec_init_cipherRefused hst hseed hk); cases hresp
    · cases hnext (exec_init_invalid hst hseed); cases hresp
  · cases hnext (exec_init_constructed n hst); cases hresp

/-- The captured bytes are the staged ones as far as the key reaches (R92). -/
theorem captureBytes_take (a : Bytes 32) (n : Nat) : (captureBytes a n).toList.take n = a.toList.take n := by
  refine List.ext_getElem (by simp) fun i hi _ => ?_
  rw [List.length_take] at hi
  simp [captureBytes_get, (by omega : i < n)]

/-- The key after `INIT` is the staged key (R36, R92). -/
theorem Engine.key_constructed (n : BitVec 6) (e : Engine) : (constructed n e).key = e.seedin.toList.take n.toNat :=
  captureBytes_take e.seedin n.toNat

/-- Settles O21: after `INIT` the counter is 0 and a block is needed; only the increment of `2^128 - 1` is 0. -/
theorem firstBlockEncryptsCounterOne : Obligations.FirstBlockEncryptsCounterOne := by
  refine ⟨fun n w s t h hresp henc hw => ?_, fun w s t b ok h hlog hb => ?_⟩
  · have hone : incrementCounter (Vector.replicate 16 0) = #v[1, 0, 0, 0, 0, 0, 0, 0, 0, 0, 0, 0, 0, 0, 0, 0] := by
      decide
    obtain rfl := exec_init_of_ok h hresp
    refine ⟨_, _, (exec_nextbits_refresh rfl hw (.inl rfl)).trans (refreshAndDeliver_ok _ _ _ henc), ?_, rfl, rfl⟩
    rw [← Engine.key_constructed, ← hone]
    rfl
  · obtain hnone | ⟨n, hi, -⟩ | ⟨-, -, -, -, -, henc⟩ := exec_cipherLog h
    · simp [hnone] at hlog
    · cases hi
    · rw [henc, List.append_cancel_left_eq, List.singleton_inj, CipherTxn.enc.injEq] at hlog
      rw [← hlog.left, le128_incrementCounter] at hb
      have := le128_lt s.engine.ctr
      omega

/-- Byte `i` is read back from the little-endian integer (R9, R132). -/
theorem littleEndian_byte (bs : List Byte) (i : Nat) (h : i < bs.length) :
    BitVec.ofNat 8 (littleEndian bs / 256 ^ i) = bs[i] := by
  induction bs generalizing i with
  | nil => cases h
  | cons b bs ih =>
    have hb := b.isLt
    rw [littleEndian]
    cases i with
    | zero => rw [List.getElem_cons_zero]; bv_omega
    | succ i =>
      have hrest : (b.toNat + 256 * littleEndian bs) / 256 = littleEndian bs := by omega
      rw [Nat.pow_succ', ← Nat.div_div_eq_div_mul, hrest, List.getElem_cons_succ, ih]

/-- `bytes16` inverts `LE128` (R132). -/
theorem bytes16_le128 (c : Block) : bytes16 (le128 c) = c := by
  refine Vector.ext fun i hi => ?_
  rw [bytes16, Vector.getElem_ofFn, le128, littleEndian_byte _ _ (by simpa using hi), Vector.getElem_toList]

/-- What `NEXTBITS` reads and writes is the same in both engines. -/
structure SameStream (e f : Engine) : Prop where
  state : f.state = e.state
  seed : SameSeed e f
  counter : f.ctr = e.ctr
  buffer : f.buf = e.buf
  cursor : f.cur = e.cur
  populated : f.pop = e.pop

theorem sameStream_withLasterr (st : Status) (e : Engine) : SameStream e (withLasterr st e) :=
  ⟨rfl, ⟨rfl, rfl⟩, rfl, rfl, rfl, rfl⟩

/-- Outside `UNINIT` every command but `RST` and `NEXTBITS` leaves the stream alone (R114, R144). -/
theorem exec_sameStream {i : Instr} {s t : State} (h : exec i s = .next t) (hst : s.engine.state ≠ .uninit)
    (hrst : i ≠ .rst) (hbits : ∀ w, i ≠ .nextbits w) : SameStream s.engine t.engine := by
  have hnext {u : State} (hu : exec i s = .next u) : u = t := Host.Outcome.next.inj (hu.symm.trans h)
  cases i with
  | rst => exact absurd rfl hrst
  | nextbits w => exact absurd rfl (hbits w)
  | seedw | stat | ctrr | bufr => cases h; exact ⟨rfl, ⟨rfl, rfl⟩, rfl, rfl, rfl, rfl⟩
  | init n => cases hnext (exec_init_constructed n hst); exact sameStream_withLasterr _ _
  | seedr k =>
    rw [exec, execSeedr, if_neg hst] at h
    split_ifs at h <;> cases h <;> exact ⟨rfl, ⟨rfl, rfl⟩, rfl, rfl, rfl, rfl⟩

/-- What the engine holds when word `p` was the last one taken, counted from the start of the block of `e₀`'s counter as
`streamWord` counts (R132). -/
structure LastWord (e₀ e : Engine) (p : Nat) : Prop where
  seed : SameSeed e₀ e
  counter : le128 e.ctr = (le128 e₀.ctr + p / 4) % 2 ^ 128
  populated : e.pop = true → e.cur.toNat = 4 * (p % 4) + 4 ∧ e.buf = Config.cipher e.klen.toNat e.key e.ctr
  /-- Before the first refresh the block of the counter counts as consumed. -/
  unpopulated : e.pop = false → p = 3

/-- The position in the stream does not depend on what `NEXTBITS` does not read. -/
theorem LastWord.congr {e₀ e f : Engine} {p : Nat} (h : LastWord e₀ e p) (hsame : SameStream e f) :
    LastWord e₀ f p := by
  obtain ⟨-, ⟨hseed, hklen⟩, hctr, hbuf, hcur, hpop⟩ := hsame
  obtain ⟨⟨hseed₀, hklen₀⟩, hcounter, hpopulated, hunpopulated⟩ := h
  refine ⟨⟨hseed.trans hseed₀, hklen.trans hklen₀⟩, by rw [hctr, hcounter], fun h => ?_,
    fun h => hunpopulated (hpop ▸ h)⟩
  rw [hcur, hbuf, hctr, hklen, Engine.key_congr hseed hklen]
  exact hpopulated (hpop ▸ h)

/-- A block is needed exactly when the last word taken was the last of its block (R111). -/
theorem LastWord.refreshNeeded_iff {e₀ e : Engine} {p : Nat} (h : LastWord e₀ e p) :
    refreshNeeded e.pop e.cur = true ↔ p % 4 = 3 := by
  rw [Machine.refreshNeeded_iff]
  cases hpop : e.pop with
  | false => simp [h.unpopulated hpop]
  | true =>
    obtain ⟨hcur, -⟩ := h.populated hpop
    simp only [Bool.true_eq_false, false_or]
    omega

/-- The supplied engine holds the block of the next word, and the cursor is at that word (R111, R114). -/
theorem LastWord.supplied {e₀ e : Engine} {p : Nat} (h : LastWord e₀ e p) :
    SameSeed e₀ e.supplied ∧ le128 e.supplied.ctr = (le128 e₀.ctr + (p + 1) / 4) % 2 ^ 128 ∧
      e.supplied.cur.toNat = 4 * ((p + 1) % 4) ∧ e.supplied.pop = true ∧
      e.supplied.buf = Config.cipher e.supplied.klen.toNat e.supplied.key e.supplied.ctr := by
  have hcounter := h.counter
  rw [Engine.supplied]
  split_ifs with hneed
  · have hp := h.refreshNeeded_iff.mp hneed
    refine ⟨h.seed, (le128_incrementCounter e.ctr).trans ?_, ?_, rfl, rfl⟩
    · omega
    · change 0 = _
      omega
  · have hp := mt h.refreshNeeded_iff.mpr hneed
    have hpop : e.pop = true := by
      by_contra hpop
      exact hneed ((Machine.refreshNeeded_iff _ _).mpr (.inl (eq_false_of_ne_true hpop)))
    obtain ⟨hcur, hbuf⟩ := h.populated hpop
    exact ⟨h.seed, by omega, by omega, hpop, hbuf⟩

/-- The word `NEXTBITS` takes is the next of the stream (R132). -/
theorem LastWord.nextWord_eq {e₀ e : Engine} {p : Nat} (h : LastWord e₀ e p) :
    e.nextWord = streamWord Config.cipher e₀ (p + 1) := by
  obtain ⟨⟨hseed, hklen⟩, hcounter, hcur, -, hbuf⟩ := h.supplied
  rw [hklen, Engine.key_congr hseed hklen, ← bytes16_le128 e.supplied.ctr, hcounter] at hbuf
  rw [Engine.nextWord, readBufWord_inside _ _ e.supplied_cur_le, streamWord]
  simp only [hcur, hbuf, Option.getD_some]

/-- A delivery moves the position by one word (R132). -/
theorem LastWord.delivered {e₀ : Engine} {s : State} {p : Nat} (h : LastWord e₀ s.engine p) (w : BitVec 6) :
    LastWord e₀ (afterDelivery w s).engine (p + 1) := by
  obtain ⟨hseed, hcounter, hcur, hpop, hbuf⟩ := h.supplied
  refine ⟨hseed, hcounter, fun _ => ⟨?_, hbuf⟩, fun hpop' => ?_⟩
  · change (s.engine.supplied.cur + 4).toNat = _
    have := s.engine.supplied_cur_le
    bv_omega
  · cases hpop.symm.trans hpop'

/-- The life that began in `e₀` goes on: in `READY` word `p` was the last one taken, and in `DEAD` no word is taken any
more (R132). -/
def InStream (e₀ e : Engine) (p : Nat) : Prop := e.state ≠ .uninit ∧ (e.state = .ready → LastWord e₀ e p)

theorem InStream.congr {e₀ e f : Engine} {p : Nat} (h : InStream e₀ e p) (hsame : SameStream e f) :
    InStream e₀ f p := by
  obtain ⟨hbuilt, hlast⟩ := h
  exact ⟨hsame.state ▸ hbuilt, fun hready => (hlast (hsame.state ▸ hready)).congr hsame⟩

/-- The width is the operand field of the word (R74, R110). -/
theorem val6Field_of_decode_nextbits {c : Word} {w : BitVec 6} (h : decode c = .legal (.nextbits w)) :
    val6Field c = w := by
  have hc := encode_toNat (.nextbits w)
  rw [encode_of_decode h, Instr.opcode, Instr.operand] at hc
  refine BitVec.eq_of_toNat_eq ?_
  rw [val6Field_toNat]
  omega

/-- A request with its response is a successful `NEXTBITS` (R132). -/
def takesWord (x : (Request × Env) × Response) : Bool := isNextbits x.1 && decide (x.2.status = .ok)

theorem takesWord_iff (x : (Request × Env) × Response) :
    takesWord x = true ↔ (∃ w, decode x.1.1.cmd = .legal (.nextbits w)) ∧ x.2.status = .ok := by
  rw [takesWord, Bool.and_eq_true, decide_eq_true_eq, isNextbits]
  refine and_congr_left' ?_
  split
  · next w hw => simp [hw]
  · next hother => simpa using hother

/-- The response is the top bits of word `q` of the stream (R132). -/
def ReturnsWord (e₀ : Engine) (q : Nat) (x : (Request × Env) × Response) : Prop :=
  x.2.rdata = streamWord Config.cipher e₀ q >>> (32 - (val6Field x.1.1.cmd).toNat)

/-- The responses are those of the words from word `q` on (R132). -/
def ReturnsWordsFrom (e₀ : Engine) (q : Nat) (words : List ((Request × Env) × Response)) : Prop :=
  ∀ j x, words[j]? = some x → ReturnsWord e₀ (q + j) x

theorem ReturnsWordsFrom.cons {e₀ : Engine} {q : Nat} {x : (Request × Env) × Response}
    {words : List ((Request × Env) × Response)} (hx : ReturnsWord e₀ q x) (h : ReturnsWordsFrom e₀ (q + 1) words) :
    ReturnsWordsFrom e₀ q (x :: words) := by
  intro j y hy
  cases j with
  | zero => cases hy; exact hx
  | succ j => rw [Nat.add_comm j 1, ← Nat.add_assoc]; exact h j y hy

/-- What one request does to the stream: it takes the next word and returns its top bits, or it leaves the position as it
was (R132). -/
def ServedInStream (e₀ : Engine) (p : Nat) (r : Request) (e : Env) (t : State) : Prop :=
  ∃ a, t.response = some a ∧
    (takesWord ((r, e), a) = true ∧ ReturnsWord e₀ (p + 1) ((r, e), a) ∧ InStream e₀ t.engine (p + 1) ∨
      ¬takesWord ((r, e), a) = true ∧ InStream e₀ t.engine p)

/-- `NEXTBITS` takes a word exactly when it succeeds (R132). -/
theorem serve_nextbits_inStream {e₀ : Engine} {r : Request} {e : Env} {s : State} {p : Nat} {w : BitVec 6}
    (h : InStream e₀ s.engine p) (hdec : decode r.cmd = .legal (.nextbits w)) :
    ∃ t, serve r e s = .next t ∧ ServedInStream e₀ p r e t := by
  rw [serve_of_legal hdec]
  obtain ⟨t, ht, houtcome⟩ := exec_nextbits_outcome w (s.present r e)
  refine ⟨t, ht, ?_⟩
  cases houtcome with
  | refused hground =>
    exact ⟨_, rfl, .inr ⟨mt (takesWord_iff _).mp fun ⟨_, hok⟩ => hground.ne_ok hok,
      h.congr (sameStream_withLasterr _ _)⟩⟩
  | ended => exact ⟨_, rfl, .inr ⟨mt (takesWord_iff _).mp nofun, nofun, nofun⟩⟩
  | delivered hready =>
    have hlast : LastWord e₀ (s.present r e).engine p := h.right hready
    refine ⟨_, rfl, .inl ⟨(takesWord_iff _).mpr ⟨⟨w, hdec⟩, rfl⟩, ?_, ?_, fun _ => hlast.delivered w⟩⟩
    · rw [ReturnsWord, val6Field_of_decode_nextbits hdec, ← hlast.nextWord_eq]; rfl
    · rw [afterDelivery_state]; exact h.left

/-- No request but `RST` leaves the stream (R132, R144). -/
theorem serve_inStream {e₀ : Engine} {r : Request} {e : Env} {s : State} {p : Nat} (h : InStream e₀ s.engine p)
    (hrst : isRst r = false) : ∃ t, serve r e s = .next t ∧ ServedInStream e₀ p r e t := by
  cases hdec : decode r.cmd with
  | illegal why =>
    exact ⟨_, serve_of_illegal hdec e s, _, rfl, .inr ⟨mt (takesWord_iff _).mp nofun,
      h.congr (sameStream_withLasterr _ _)⟩⟩
  | legal i =>
    by_cases hbits : ∃ w, i = .nextbits w
    · obtain ⟨w, rfl⟩ := hbits
      exact serve_nextbits_inStream h hdec
    · obtain ⟨t, st, v, ht, hresp, -⟩ := exec_completes i (s.present r e)
      have hi : i ≠ .rst := by
        rintro rfl
        simp [isRst, hdec] at hrst
      have hother : ¬∃ w, decode r.cmd = .legal (.nextbits w) := by simpa [hdec] using hbits
      have hsame : SameStream s.engine t.engine :=
        exec_sameStream (s := s.present r e) ht h.left hi (not_exists.mp hbits)
      exact ⟨t, (serve_of_legal hdec e s).trans ht, _, hresp,
        .inr ⟨mt (takesWord_iff _).mp fun ⟨hw, _⟩ => hother hw, h.congr hsame⟩⟩

theorem successfulNextbits_cons (x : Request × Env) (a : Response) (requests : List (Request × Env))
    (answers : List Response) : successfulNextbits (x :: requests) (a :: answers) =
      if takesWord (x, a) then (x, a) :: successfulNextbits requests answers
      else successfulNextbits requests answers := by
  rw [successfulNextbits, List.zip_cons_cons, List.filter_cons]
  rfl

theorem serveAll_cons {r : Request} {e : Env} {s t u : State} {a : Response} {requests : List (Request × Env)}
    {answers : List Response} (h : serve r e s = .next t) (ha : t.response = some a)
    (hrest : serveAll requests t = some (answers, u)) :
    serveAll ((r, e) :: requests) s = some (a :: answers, u) := by
  simp only [serveAll, h, ha, hrest]

/-- A run without `RST` takes the words of the stream in order, one for each successful `NEXTBITS` (R132). -/
theorem serveAll_inStream {e₀ : Engine} (requests : List (Request × Env)) {s : State} {p : Nat}
    (h : InStream e₀ s.engine p) (hrst : ∀ x ∈ requests, isRst x.1 = false) :
    ∃ answers t, serveAll requests s = some (answers, t) ∧
      ReturnsWordsFrom e₀ (p + 1) (successfulNextbits requests answers) ∧
      InStream e₀ t.engine (p + (successfulNextbits requests answers).length) := by
  induction requests generalizing s p with
  | nil => exact ⟨[], s, rfl, nofun, h⟩
  | cons x requests ih =>
    obtain ⟨hfirst, hrest⟩ := List.forall_mem_cons.mp hrst
    obtain ⟨t, ht, a, ha, ⟨htakes, hword, hstream⟩ | ⟨htakes, hstream⟩⟩ := serve_inStream (e := x.2) h hfirst
    all_goals
      obtain ⟨answers, u, hall, hwords, hend⟩ := ih hstream hrest
      refine ⟨a :: answers, u, serveAll_cons ht ha hall, ?_⟩
      rw [successfulNextbits_cons]
    · rw [if_pos htakes, List.length_cons]
      rw [Nat.add_right_comm] at hend
      exact ⟨hwords.cons hword, hend⟩
    · rw [if_neg htakes]
      exact ⟨hwords, hend⟩

/-- Settles O22: before its first refresh the engine stands at the last word of the block of counter value 0, so the
successful `NEXTBITS` number `j` takes word `4 + j`. -/
theorem keystreamInClosedForm : Obligations.KeystreamInClosedForm := by
  intro s requests hready hpop _ hctr hrst
  have hstart : LastWord s.engine s.engine 3 :=
    ⟨⟨rfl, rfl⟩, by rw [hctr]; rfl, fun h => (by simp [hpop] at h), fun _ => rfl⟩
  obtain ⟨answers, t, hall, hwords, -, hend⟩ := serveAll_inStream requests ⟨by simp [hready], fun _ => hstart⟩ hrst
  refine ⟨answers, t, hall, hwords, fun n hn htready => ?_⟩
  obtain ⟨-, hcounter, hpopulated, hunpopulated⟩ := hend htready
  rw [hn] at hcounter hpopulated hunpopulated
  have htpop : t.engine.pop = true := by
    by_contra h
    have := hunpopulated (eq_false_of_ne_true h)
    omega
  obtain ⟨hcur, -⟩ := hpopulated htpop
  exact ⟨by omega, by omega⟩

end Sys2Proof.Machine
end

section
/-! PROOFS of the read-out family (42_readout.md): what a read-out word can do, the words of the seed, the counter and the
buffer, and the stream with and without the commands between its `NEXTBITS`. -/

namespace Sys2Proof

/-- The opcode of a command stands in the top digit of its words (R75). -/
theorem Instr.opcode_of_decode {c : Word} {i : Instr} (h : decode c = .legal i) : i.opcode = c.toNat / 2 ^ 28 := by
  have hword := encode_toNat i
  have hlt := i.operand_lt
  rw [encode_of_decode h] at hword
  omega

end Sys2Proof

namespace Sys2Proof.Machine

open Sys2Proof.Safety

/-- A word the decoder refuses is answered `ERR_ILLEGAL` and leaves the rest as it was (R77, R165). -/
theorem serve_of_instr?_eq_none {r : Request} (h : (decode r.cmd).instr? = none) (e : Env) (s : State) :
    serve r e s = .next (refusedWith .errIllegal (s.present r e)) := by
  obtain ⟨why, hwhy⟩ := (Decoded.instr?_eq_none_iff _).mp h
  exact serve_of_illegal hwhy e s

/-- Before any `INIT` succeeded there is no seed to read (R140). -/
theorem exec_seedr_uninit (k : BitVec 3) {s : State} (h : s.engine.state = .uninit) :
    exec (.seedr k) s = .next (refusedWith .errState s) := by
  rw [exec, execSeedr, if_pos h]
  rfl

/-- A word beyond the captured seed is refused (R140, R171). -/
theorem exec_seedr_beyond {k : BitVec 3} {s : State} (h : s.engine.state ≠ .uninit)
    (hk : s.engine.klen.toNat / 4 ≤ k.toNat) : exec (.seedr k) s = .next (refusedWith .errIndex s) := by
  rw [exec, execSeedr, if_neg h, if_pos hk]
  rfl

/-- `ERR_INDEX` is the answer to a `SEEDR` beyond the captured seed, and to nothing else (R171). -/
theorem Completion.of_errIndex {s t : State} {i : Instr} (h : Completion s t i .errIndex) :
    s.engine.state ≠ .uninit ∧ ∃ k, i = .seedr k ∧ s.engine.klen.toNat / 4 ≤ k.toNat := by
  cases h with
  | refused hground =>
    cases hground with
    | seedrIndex hst hk => exact ⟨hst, _, rfl, hk⟩

theorem LifeState.ne_uninit_iff (l : LifeState) : l ≠ .uninit ↔ l = .ready ∨ l = .dead := by
  cases l <;> decide

/-- Settles O36: the three cases of `SEEDR`; its malformed words are illegal; `ERR_INDEX` stands on one ground of refusal
only. -/
theorem seedrReadsTheCapturedSeed : Obligations.SeedrReadsTheCapturedSeed := by
  refine ⟨fun k s => exec_seedr_uninit k, fun k s => exec_seedr_beyond,
    fun k s hst hk => ⟨_, exec_seedr_inside hst hk, lane_seedWord _ k⟩,
    fun r e s hop hbits => serve_of_instr?_eq_none ((instr?_decode_eq_none_iff r.cmd).mpr (by omega)) e s,
    fun i s t v h hresp => ?_⟩
  rw [← LifeState.ne_uninit_iff]
  exact (completion_of_response h hresp).of_errIndex

/-- Every word of an array of zeros reads 0 (R54). -/
@[simp] theorem blockWord_replicate_zero (k : BitVec 2) : blockWord (Vector.replicate 16 0) k = 0 := by
  simp only [blockWord, Vector.getElem_replicate]
  rfl

/-- `CTRR` answers its word of the counter and leaves the rest as it was (R142). -/
theorem exec_ctrr (k : BitVec 2) (s : State) :
    exec (.ctrr k) s = .next (answeredWith (blockWord s.engine.ctr k) s) := rfl

/-- `BUFR` answers its word of the buffer and leaves the rest as it was (R143). -/
theorem exec_bufr (k : BitVec 2) (s : State) :
    exec (.bufr k) s = .next (answeredWith (blockWord s.engine.buf k) s) := rfl

/-- In `UNINIT`, and in `READY` before the first refresh, the counter is 0 (R37, items 3 and 5). -/
theorem ctr_eq_zero_of_unrefreshed {E : Cipher} {e : Engine} (hinv : EngineInv E e)
    (h : e.state = .uninit ∨ (e.state = .ready ∧ e.pop = false)) : e.ctr = Vector.replicate 16 0 := by
  obtain huninit | ⟨hready, hpop⟩ := h
  · obtain ⟨-, hctr, -⟩ := hinv.uninit_zero huninit
    exact hctr
  · exact hinv.unpopulated_counter hpop (by rw [hready]; decide)

/-- Settles O38: the word is a slice of the counter, which is 0 before the first refresh; a malformed word of `CTRR` is
illegal. -/
theorem ctrrReadsTheCounter : Obligations.CtrrReadsTheCounter := by
  refine ⟨fun k s => ⟨_, exec_ctrr k s, lane_blockWord _ k, blockWord_toNat _ k, fun hinv h => ?_⟩,
    fun r e s hop hbits => serve_of_instr?_eq_none ((instr?_decode_eq_none_iff r.cmd).mpr (by omega)) e s⟩
  rw [ctr_eq_zero_of_unrefreshed hinv.left h, blockWord_replicate_zero]

/-- The big-endian word at offset `4k` of the buffer is the byte swap of what `BUFR k` reads there (R54, R143). -/
theorem readBufWord_swaps_blockWord (buf : Block) (k : BitVec 2) :
    ∃ w, readBufWord buf (4 * k.toNat) = some w ∧
      ∀ j : Fin 4, lane w (3 - j.val) = lane (blockWord buf k) j.val :=
  ⟨_, readBufWord_inside buf _ (by omega), lane_be32_reverse _ _ _ _⟩

/-- Settles O39: the word is four bytes of the buffer, which is 0 until it is populated; a malformed word of `BUFR` is
illegal. -/
theorem bufrReadsTheBuffer : Obligations.BufrReadsTheBuffer := by
  refine ⟨fun k s => ⟨_, exec_bufr k s, lane_blockWord _ k, fun hinv hpop => ?_, readBufWord_swaps_blockWord _ k⟩,
    fun r e s hop hbits => serve_of_instr?_eq_none ((instr?_decode_eq_none_iff r.cmd).mpr (by omega)) e s⟩
  obtain ⟨hbuf, -⟩ := hinv.left.unpopulated hpop
  rw [hbuf, blockWord_replicate_zero]

/-- What a read-out can do: answer data and change nothing, or be refused (R145). -/
inductive ReadoutOutcome (s : State) : State → Prop
  | answered (v : Word) : ReadoutOutcome s (answeredWith v s)
  | refused {st} (h : st ≠ .ok) : ReadoutOutcome s (refusedWith st s)

/-- The commands of the opcodes from 5 on are the read-outs, and they do nothing else (R75, R145). -/
theorem exec_readout {i : Instr} (h : 5 ≤ i.opcode) (s : State) :
    ∃ t, exec i s = .next t ∧ ReadoutOutcome s t := by
  cases i with
  | rst | seedw | init | nextbits => exact absurd h (by simp [Instr.opcode])
  | stat => exact ⟨_, exec_stat s, .answered _⟩
  | ctrr k => exact ⟨_, exec_ctrr k s, .answered _⟩
  | bufr k => exact ⟨_, exec_bufr k s, .answered _⟩
  | seedr k =>
    by_cases hst : s.engine.state = .uninit
    · exact ⟨_, exec_seedr_uninit k hst, .refused (by decide)⟩
    · by_cases hk : k.toNat < s.engine.klen.toNat / 4
      · exact ⟨_, exec_seedr_inside hst hk, .answered _⟩
      · exact ⟨_, exec_seedr_beyond hst (Nat.not_lt.mp hk), .refused (by decide)⟩

/-- A word with the opcode of a read-out is a read-out on the request as presented, or it is refused as illegal (R145). -/
theorem serve_readout {r : Request} (h : 5 ≤ r.cmd.toNat / 2 ^ 28) (e : Env) (s : State) :
    ∃ t, serve r e s = .next t ∧ ReadoutOutcome (s.present r e) t := by
  cases hdec : decode r.cmd with
  | illegal why => exact ⟨_, serve_of_illegal hdec e s, .refused (by decide)⟩
  | legal i =>
    rw [serve_of_legal hdec]
    exact exec_readout (Instr.opcode_of_decode hdec ▸ h) _

/-- Settles O40: an answered read-out leaves the engine, a refused one records its error. -/
theorem readoutNeverTouchesGeneration : Obligations.ReadoutNeverTouchesGeneration := by
  intro r e s hop _
  obtain ⟨t, ht, houtcome⟩ := serve_readout hop e s
  cases houtcome with
  | answered v => exact ⟨_, .ok, v, ht, rfl, rfl, fun _ => rfl, absurd rfl⟩
  | refused hst => exact ⟨_, _, 0, ht, rfl, rfl, fun hok => absurd hok hst, fun _ => rfl⟩

theorem SameStream.refl (e : Engine) : SameStream e e := ⟨rfl, ⟨rfl, rfl⟩, rfl, rfl, rfl, rfl⟩

theorem SameSeed.trans {e f g : Engine} (hef : SameSeed e f) (hfg : SameSeed f g) : SameSeed e g :=
  ⟨hfg.left.trans hef.left, hfg.right.trans hef.right⟩

theorem SameStream.trans {e f g : Engine} (hef : SameStream e f) (hfg : SameStream f g) : SameStream e g where
  state := hfg.state.trans hef.state
  seed := hef.seed.trans hfg.seed
  counter := hfg.counter.trans hef.counter
  buffer := hfg.buffer.trans hef.buffer
  cursor := hfg.cursor.trans hef.cursor
  populated := hfg.populated.trans hef.populated

/-- Both engines are supplied alike: the block depends on nothing but the stream (R113, R114). -/
theorem SameStream.supplied {e f : Engine} (h : SameStream e f) : SameStream e.supplied f.supplied := by
  obtain ⟨hstate, ⟨hseed, hklen⟩, hctr, hbuf, hcur, hpop⟩ := h
  rw [Engine.supplied, Engine.supplied, hpop, hcur]
  split_ifs
  · refine ⟨hstate, ⟨hseed, hklen⟩, congrArg incrementCounter hctr, ?_, rfl, rfl⟩
    simp only [hklen, hctr, Engine.key_congr hseed hklen]
  · exact ⟨hstate, ⟨hseed, hklen⟩, hctr, hbuf, hcur, hpop⟩

theorem SameStream.nextWord_eq {e f : Engine} (h : SameStream e f) : f.nextWord = e.nextWord := by
  rw [Engine.nextWord, Engine.nextWord, h.supplied.buffer, h.supplied.cursor]

theorem SameStream.afterDelivery {s u : State} (h : SameStream s.engine u.engine) (w : BitVec 6) :
    SameStream (afterDelivery w s).engine (afterDelivery w u).engine :=
  { h.supplied with cursor := congrArg (· + 4) h.supplied.cursor }

theorem SameStream.afterFailedRefresh {s u : State} (h : SameStream s.engine u.engine) :
    SameStream (afterFailedRefresh s).engine (afterFailedRefresh u).engine :=
  { h with state := rfl, counter := congrArg incrementCounter h.counter }

/-- Two machines with the same stream answer a request alike and again hold the same stream (R144). -/
def ServedAlike (r : Request) (e : Env) (s u : State) : Prop :=
  ∃ a s' u', serve r e s = .next s' ∧ serve r e u = .next u' ∧ s'.response = some a ∧ u'.response = some a ∧
    SameStream s'.engine u'.engine

/-- `NEXTBITS` reads nothing but the stream, its width and `enc_ok` (R110, R144). -/
theorem serve_nextbits_alike {r : Request} {w : BitVec 6} (hdec : decode r.cmd = .legal (.nextbits w)) (e : Env)
    {s u : State} (h : SameStream s.engine u.engine) : ServedAlike r e s u := by
  have hrefused (st : Status) : SameStream (withLasterr st s.engine) (withLasterr st u.engine) := { h with }
  have hsupplies : Supplies (u.present r e) ↔ Supplies (s.present r e) := by
    simp only [Supplies, State.present_engine, State.present_env, h.populated, h.cursor]
  simp only [ServedAlike, serve_of_legal hdec]
  cases hst : s.engine.state with
  | uninit =>
    exact ⟨_, _, _, exec_nextbits_uninit w hst, exec_nextbits_uninit w (h.state.trans hst), rfl, rfl, hrefused _⟩
  | dead => exact ⟨_, _, _, exec_nextbits_dead w hst, exec_nextbits_dead w (h.state.trans hst), rfl, rfl, hrefused _⟩
  | ready =>
    have hst' := h.state.trans hst
    by_cases hw : w.toNat ≤ 32
    · by_cases hsupply : Supplies (s.present r e)
      · refine ⟨_, _, _, exec_nextbits_delivers hst hw hsupply,
          exec_nextbits_delivers hst' hw (hsupplies.mpr hsupply), rfl, ?_, h.afterDelivery w⟩
        simp only [afterDelivery, answeredWith, State.present_engine, State.present_request, h.nextWord_eq]
      · exact ⟨_, _, _, exec_nextbits_ends hst hw hsupply, exec_nextbits_ends hst' hw (mt hsupplies.mp hsupply),
          rfl, rfl, h.afterFailedRefresh⟩
    · have hwide : 32 < w.toNat := by omega
      exact ⟨_, _, _, exec_nextbits_wide hst hwide, exec_nextbits_wide hst' hwide, rfl, rfl, hrefused _⟩

theorem isNextbits_iff (x : Request × Env) : isNextbits x = true ↔ ∃ w, decode x.1.cmd = .legal (.nextbits w) := by
  rw [isNextbits]
  split
  · next w hw => simp [hw]
  · next hother => simpa using hother

/-- Outside `UNINIT` every word but those of `RST` and `NEXTBITS` leaves the stream alone (R144). -/
theorem serve_sameStream {r : Request} {e : Env} {s t : State} (h : serve r e s = .next t)
    (hst : s.engine.state ≠ .uninit) (hrst : isRst r = false) (hbits : ¬isNextbits (r, e) = true) :
    SameStream s.engine t.engine := by
  cases hdec : decode r.cmd with
  | illegal why =>
    obtain rfl := Host.Outcome.next.inj ((serve_of_illegal hdec e s).symm.trans h)
    exact sameStream_withLasterr _ _
  | legal i =>
    rw [serve_of_legal hdec] at h
    refine exec_sameStream (s := s.present r e) h hst ?_ fun w hi => hbits ((isNextbits_iff _).mpr ⟨w, hi ▸ hdec⟩)
    rintro rfl
    simp [isRst, hdec] at hrst

theorem nextbitsAnswers_cons (x : Request × Env) (a : Response) (requests : List (Request × Env))
    (answers : List Response) : nextbitsAnswers (x :: requests) (a :: answers) =
      if isNextbits x then a :: nextbitsAnswers requests answers else nextbitsAnswers requests answers := by
  rw [nextbitsAnswers, List.zip_cons_cons, List.filter_cons]
  split_ifs <;> rfl

/-- A run without `RST` on one machine, and its `NEXTBITS` alone on a machine with the same stream: the `NEXTBITS` are
answered alike, and the captured seed stays (R144). -/
theorem serveAll_filter_nextbits (requests : List (Request × Env)) {s u : State}
    (hst : s.engine.state ≠ .uninit) (hsame : SameStream u.engine s.engine)
    (hrst : ∀ x ∈ requests, isRst x.1 = false) :
    ∃ answers t v, serveAll requests s = some (answers, t) ∧
      serveAll (requests.filter isNextbits) u = some (nextbitsAnswers requests answers, v) ∧
      SameSeed s.engine t.engine := by
  induction requests generalizing s u with
  | nil => exact ⟨[], s, u, rfl, rfl, rfl, rfl⟩
  | cons x requests ih =>
    obtain ⟨r, e⟩ := x
    obtain ⟨hfirst, hrest⟩ := List.forall_mem_cons.mp hrst
    rw [List.filter_cons]
    by_cases hbits : isNextbits (r, e) = true
    · obtain ⟨w, hdec⟩ := (isNextbits_iff _).mp hbits
      obtain ⟨a, u', s', hu, hs, hua, hsa, hsame'⟩ := serve_nextbits_alike hdec e hsame
      obtain ⟨hseed, hst'⟩ := serve_keeps_instance hs hst hfirst
      obtain ⟨answers, t, v, hall, hfiltered, hend⟩ := ih hst' hsame' hrest
      refine ⟨a :: answers, t, v, serveAll_cons hs hsa hall, ?_, hseed.trans hend⟩
      rw [if_pos hbits, nextbitsAnswers_cons, if_pos hbits]
      exact serveAll_cons hu hua hfiltered
    · obtain ⟨s', st, d, hs, hsa, -⟩ := serve_completes r e s
      obtain ⟨hseed, hst'⟩ := serve_keeps_instance hs hst hfirst
      have hsame' := hsame.trans (serve_sameStream hs hst hfirst hbits)
      obtain ⟨answers, t, v, hall, hfiltered, hend⟩ := ih hst' hsame' hrest
      refine ⟨_ :: answers, t, v, serveAll_cons hs hsa hall, ?_, hseed.trans hend⟩
      rw [if_neg hbits, nextbitsAnswers_cons, if_neg hbits]
      exact hfiltered

/-- Settles O23: the two runs start from the same machine, so from the same stream. -/
theorem otherCommandsLeaveTheStream : Obligations.OtherCommandsLeaveTheStream :=
  fun s requests hst hrst => serveAll_filter_nextbits requests hst (.refl s.engine) hrst

end Sys2Proof.Machine
end

section
/-! PROOFS of the errors family (60_exceptions.md): the checks of a command in their order, what a command refused by each of
them leaves, what one that passes them leaves, and which command raises which error. -/

namespace Sys2Proof.Machine

open Sys2Proof.Safety

/-- The status of a command by its own three checks: state, operand, execution (R164). -/
def commandStatus (i : Instr) (env : Env) (e : Engine) : Status :=
  if admission i e.state ≠ .ok then admission i e.state
  else if operandCheck i e ≠ .ok then operandCheck i e
  else executionCheck i env e

/-- After the decoding come the command's own checks (R164). -/
theorem statusInOrder_of_legal {c : Word} {i : Instr} (h : decode c = .legal i) (env : Env) (e : Engine) :
    statusInOrder c env e = commandStatus i env e := by
  rw [statusInOrder, h]; rfl

theorem statusInOrder_of_illegal {c : Word} {why : IllegalWord} (h : decode c = .illegal why) (env : Env) (e : Engine) :
    statusInOrder c env e = .errIllegal := by
  rw [statusInOrder, h]

theorem commandStatus_of_not_admitted {i : Instr} {e : Engine} (h : admission i e.state ≠ .ok) (env : Env) :
    commandStatus i env e = admission i e.state := if_pos h

theorem commandStatus_of_operand_refused {i : Instr} {e : Engine} (hadm : admission i e.state = .ok)
    (h : operandCheck i e ≠ .ok) (env : Env) : commandStatus i env e = operandCheck i e := by
  rw [commandStatus, if_neg (not_not.mpr hadm), if_pos h]

theorem commandStatus_of_passed {i : Instr} {e : Engine} (hadm : admission i e.state = .ok)
    (hop : operandCheck i e = .ok) (env : Env) : commandStatus i env e = executionCheck i env e := by
  rw [commandStatus, if_neg (not_not.mpr hadm), if_neg (not_not.mpr hop)]

/-- An error is the status of exactly one check, the ones before it passed (R164). -/
theorem commandStatus_eq_error_iff {st : Status} (hst : st ≠ .ok) (i : Instr) (env : Env) (e : Engine) :
    commandStatus i env e = st ↔ admission i e.state = st ∨ (admission i e.state = .ok ∧
      (operandCheck i e = st ∨ (operandCheck i e = .ok ∧ executionCheck i env e = st))) := by
  by_cases hadm : admission i e.state = .ok
  · by_cases hop : operandCheck i e = .ok
    · simp [commandStatus_of_passed hadm hop, hadm, hop, hst.symm]
    · simp [commandStatus_of_operand_refused hadm hop, hadm, hop, hst.symm]
  · simp [commandStatus_of_not_admitted hadm, hadm]

/-- `INIT` is admitted in `UNINIT` only (R166). -/
theorem admission_init_eq_ok_iff (n : BitVec 6) (l : LifeState) : admission (.init n) l = .ok ↔ l = .uninit := by
  cases l <;> simp [admission]

/-- `NEXTBITS` is admitted in `READY` only (R166). -/
theorem admission_nextbits_eq_ok_iff (w : BitVec 6) (l : LifeState) :
    admission (.nextbits w) l = .ok ↔ l = .ready := by
  cases l <;> simp [admission]

/-- `SEEDR` is admitted outside `UNINIT` (R166). -/
theorem admission_seedr_eq_ok_iff (k : BitVec 3) (l : LifeState) : admission (.seedr k) l = .ok ↔ l ≠ .uninit := by
  cases l <;> simp [admission]

theorem operandCheck_init_eq_ok_iff (n : BitVec 6) (e : Engine) :
    operandCheck (.init n) e = .ok ↔ SeedValidated n e := by
  simp [operandCheck, SeedValidated]

theorem operandCheck_nextbits_eq_ok_iff (w : BitVec 6) (e : Engine) :
    operandCheck (.nextbits w) e = .ok ↔ w.toNat ≤ 32 := by
  simp [operandCheck]

theorem operandCheck_seedr_eq_ok_iff (k : BitVec 3) (e : Engine) :
    operandCheck (.seedr k) e = .ok ↔ k.toNat < e.klen.toNat / 4 := by
  simp [operandCheck]

/-- The cipher core fails a `NEXTBITS` when it refuses a block that is needed (R120). -/
theorem not_supplies_iff (s : State) :
    ¬Supplies s ↔ (s.engine.pop = false ∨ 13 ≤ s.engine.cur.toNat) ∧ s.env.encOk = false := by
  rw [Supplies, Classical.not_imp, refreshNeeded_iff, Bool.not_eq_true]

theorem executionCheck_nextbits_of_supplies (w : BitVec 6) {s : State} (h : Supplies s) :
    executionCheck (.nextbits w) s.env s.engine = .ok :=
  if_neg fun hfail => (not_supplies_iff s).mpr hfail h

theorem executionCheck_nextbits_of_not_supplies (w : BitVec 6) {s : State} (h : ¬Supplies s) :
    executionCheck (.nextbits w) s.env s.engine = .errGen :=
  if_pos ((not_supplies_iff s).mp h)

/-- A command that the state shuts out is refused with the status of the table (R166). -/
theorem exec_not_admitted {i : Instr} {s : State} (h : admission i s.engine.state ≠ .ok) :
    exec i s = .next (refusedWith (admission i s.engine.state) s) := by
  cases i with
  | rst | seedw | stat | ctrr | bufr => exact absurd rfl h
  | init n =>
    cases hst : s.engine.state with
    | uninit => exact absurd ((admission_init_eq_ok_iff n _).mpr hst) h
    | ready | dead => exact exec_init_constructed n (by simp [hst])
  | nextbits w =>
    cases hst : s.engine.state with
    | uninit => exact exec_nextbits_uninit w hst
    | ready => exact absurd ((admission_nextbits_eq_ok_iff w _).mpr hst) h
    | dead => exact exec_nextbits_dead w hst
  | seedr k =>
    have hst : s.engine.state = .uninit := not_not.mp (mt (admission_seedr_eq_ok_iff k _).mpr h)
    rw [hst]
    exact exec_seedr_uninit k hst

/-- An admitted command whose operand is not accepted is refused with the status of the operand check (R164). -/
theorem exec_operand_refused {i : Instr} {s : State} (hadm : admission i s.engine.state = .ok)
    (h : operandCheck i s.engine ≠ .ok) : exec i s = .next (refusedWith (operandCheck i s.engine) s) := by
  cases i with
  | rst | seedw | stat | ctrr | bufr => exact absurd rfl h
  | init n =>
    have hseed : ¬SeedValidated n s.engine := mt (operandCheck_init_eq_ok_iff n _).mpr h
    have hstatus : operandCheck (.init n) s.engine = .errSeed := if_neg hseed
    rw [hstatus]
    exact exec_init_invalid ((admission_init_eq_ok_iff n _).mp hadm) hseed
  | nextbits w =>
    have hwide : 32 < w.toNat := Nat.not_le.mp (mt (operandCheck_nextbits_eq_ok_iff w s.engine).mpr h)
    have hstatus : operandCheck (.nextbits w) s.engine = .errWidth := if_pos hwide
    rw [hstatus]
    exact exec_nextbits_wide ((admission_nextbits_eq_ok_iff w _).mp hadm) hwide
  | seedr k =>
    have hbeyond := mt (operandCheck_seedr_eq_ok_iff k s.engine).mpr h
    have hstatus : operandCheck (.seedr k) s.engine = .errIndex := if_neg hbeyond
    rw [hstatus]
    exact exec_seedr_beyond ((admission_seedr_eq_ok_iff k _).mp hadm) (Nat.not_lt.mp hbeyond)

/-- What a command answered with a status leaves of the engine (R162, R163). -/
inductive Aftermath (s t : State) : Instr → Status → Prop
  | reset (ht : t.engine = Engine.reset) : Aftermath s t .rst .ok
  | completed {i} (hrst : i ≠ .rst) (ht : t.engine.lasterr = s.engine.lasterr) : Aftermath s t i .ok
  | refused {i st} (hst : st ≠ .ok) (ht : t.engine = withLasterr st s.engine) : Aftermath s t i st
  | ended {w} (h : s.engine.state = .ready) (ht : t = afterFailedRefresh s) : Aftermath s t (.nextbits w) .errGen

/-- The command answers its host with the status and has its aftermath. -/
def CompletesWith (st : Status) (i : Instr) (s : State) : Prop :=
  ∃ t v, exec i s = .next t ∧ t.response = some ⟨s.request.host, st, v⟩ ∧ Aftermath s t i st

theorem Engine.supplied_lasterr (e : Engine) : e.supplied.lasterr = e.lasterr := by
  rw [Engine.supplied]
  split_ifs <;> rfl

/-- A command that passed the checks on state and operand answers the status of its execution (R164). -/
theorem completesWith_executionCheck {i : Instr} {s : State} (hadm : admission i s.engine.state = .ok)
    (hop : operandCheck i s.engine = .ok) : CompletesWith (executionCheck i s.env s.engine) i s := by
  cases i with
  | rst => exact ⟨_, _, exec_rst s, rfl, .reset rfl⟩
  | seedw | stat | ctrr | bufr => exact ⟨_, _, rfl, rfl, .completed nofun rfl⟩
  | seedr k =>
    have hst := (admission_seedr_eq_ok_iff k _).mp hadm
    have hk := (operandCheck_seedr_eq_ok_iff k _).mp hop
    exact ⟨_, _, exec_seedr_inside hst hk, rfl, .completed nofun rfl⟩
  | init n =>
    have hst := (admission_init_eq_ok_iff n _).mp hadm
    have hseed := (operandCheck_init_eq_ok_iff n _).mp hop
    rw [executionCheck]
    cases hk : s.env.kinitOk with
    | true => exact ⟨_, _, exec_init_accepted hst hseed hk, rfl, .completed nofun rfl⟩
    | false => exact ⟨_, _, exec_init_cipherRefused hst hseed hk, rfl, .refused (by decide) rfl⟩
  | nextbits w =>
    have hst := (admission_nextbits_eq_ok_iff w _).mp hadm
    have hw := (operandCheck_nextbits_eq_ok_iff w _).mp hop
    by_cases hsupply : Supplies s
    · rw [executionCheck_nextbits_of_supplies w hsupply]
      exact ⟨_, _, exec_nextbits_delivers hst hw hsupply, rfl, .completed nofun s.engine.supplied_lasterr⟩
    · rw [executionCheck_nextbits_of_not_supplies w hsupply]
      exact ⟨_, _, exec_nextbits_ends hst hw hsupply, rfl, .ended hst rfl⟩

/-- Every command answers the status of the earliest check that is not `OK` (R164). -/
theorem completesWith_commandStatus (i : Instr) (s : State) :
    CompletesWith (commandStatus i s.env s.engine) i s := by
  by_cases hadm : admission i s.engine.state = .ok
  · by_cases hop : operandCheck i s.engine = .ok
    · rw [commandStatus_of_passed hadm hop]
      exact completesWith_executionCheck hadm hop
    · rw [commandStatus_of_operand_refused hadm hop]
      exact ⟨_, _, exec_operand_refused hadm hop, rfl, .refused hop rfl⟩
  · rw [commandStatus_of_not_admitted hadm]
    exact ⟨_, _, exec_not_admitted hadm, rfl, .refused hadm rfl⟩

/-- A transaction on the cipher port is issued only after the checks on state and operand (R164, rule 4). -/
theorem passed_of_cipherLog_ne {i : Instr} {s t : State} (h : exec i s = .next t) (hlog : t.cipherLog ≠ s.cipherLog) :
    admission i s.engine.state = .ok ∧ operandCheck i s.engine = .ok := by
  obtain hnone | ⟨n, rfl, hst, hseed, -⟩ | ⟨w, rfl, hst, hw, -⟩ := exec_cipherLog h
  · exact absurd hnone hlog
  · exact ⟨(admission_init_eq_ok_iff n _).mpr hst, (operandCheck_init_eq_ok_iff n _).mpr hseed⟩
  · exact ⟨(admission_nextbits_eq_ok_iff w _).mpr hst, (operandCheck_nextbits_eq_ok_iff w _).mpr hw⟩

/-- Settles O42: an illegal word is refused by the decoder; a command answers by its own checks. -/
theorem statusFollowsTheCheckOrder : Obligations.StatusFollowsTheCheckOrder := by
  intro r e s
  cases hdec : decode r.cmd with
  | illegal why =>
    rw [statusInOrder_of_illegal hdec]
    exact ⟨_, _, serve_of_illegal hdec e s, rfl, fun hlog => absurd rfl hlog⟩
  | legal i =>
    obtain ⟨t, v, ht, hresp, -⟩ := completesWith_commandStatus i (s.present r e)
    have hpassed := passed_of_cipherLog_ne ht
    rw [statusInOrder_of_legal hdec]
    exact ⟨t, v, (serve_of_legal hdec e s).trans ht, hresp, fun hlog => ⟨i, rfl, hpassed hlog⟩⟩

/-- The refusals of the operand check (R164, rule 3). -/
theorem operandCheck_range (i : Instr) (e : Engine) : operandCheck i e ∈ [.ok, .errSeed, .errWidth, .errIndex] := by
  cases i with
  | rst | seedw | stat | ctrr | bufr => simp [operandCheck]
  | init | nextbits | seedr => rw [operandCheck]; split_ifs <;> decide

/-- The errors of the execution (R164, rule 4). -/
theorem executionCheck_range (i : Instr) (env : Env) (e : Engine) :
    executionCheck i env e ∈ [.ok, .errCipherInit, .errGen] := by
  cases i with
  | rst | seedw | stat | ctrr | bufr | seedr => simp [executionCheck]
  | init | nextbits => rw [executionCheck]; split_ifs <;> decide

/-- Settles O43: neither the operand nor the execution of an admitted command is refused with `ERR_STATE`. -/
theorem admissibilityTableHolds : Obligations.AdmissibilityTableHolds := by
  refine ⟨fun i s => exec_not_admitted, fun i s hadm => ?_⟩
  obtain ⟨t, v, ht, hresp, -⟩ := completesWith_commandStatus i s
  have hoperand := ne_of_mem_of_not_mem (operandCheck_range i s.engine) (b := .errState) (by decide)
  have hexecution := ne_of_mem_of_not_mem (executionCheck_range i s.env s.engine) (b := .errState) (by decide)
  refine ⟨t, _, v, ht, hresp, ?_⟩
  rw [Ne, commandStatus_eq_error_iff (by decide)]
  simp [hadm, hoperand, hexecution]

/-- A command answers an error with `rdata` 0, and exactly when it is the status of its checks (R78, R164). -/
theorem response_eq_error_iff {i : Instr} {s t : State} {st : Status} (h : exec i s = .next t) (hst : st ≠ .ok) :
    t.response = some ⟨s.request.host, st, 0⟩ ↔ commandStatus i s.env s.engine = st := by
  obtain ⟨u, v, hu, hresp, -⟩ := completesWith_commandStatus i s
  obtain ⟨u', hu', hdata⟩ := exec_carriesData i s
  obtain rfl := Host.Outcome.next.inj (hu.symm.trans h)
  obtain rfl := Host.Outcome.next.inj (hu'.symm.trans h)
  rw [hresp, Option.some_inj, Response.mk.injEq]
  refine ⟨fun ⟨_, hstatus, _⟩ => hstatus, fun hstatus => ⟨rfl, hstatus, ?_⟩⟩
  obtain ⟨st', hzero⟩ | ⟨-, v', hok⟩ := hdata
  · rw [hresp] at hzero; cases hzero; rfl
  · rw [hresp, hstatus] at hok; cases hok; exact absurd rfl hst

/-- In `DEAD` the table refuses `NEXTBITS` with `ERR_GEN`, and it refuses nothing else with it (R166, R169). -/
theorem admission_eq_errGen_iff (i : Instr) (l : LifeState) :
    admission i l = .errGen ↔ ∃ w, i = .nextbits w ∧ l = .dead := by
  cases i with
  | rst | seedw | stat | ctrr | bufr => simp [admission]
  | init | nextbits | seedr => cases l <;> simp [admission]

/-- The table refuses nothing with `ERR_CIPHER_INIT` (R166). -/
theorem admission_ne_errCipherInit (i : Instr) (l : LifeState) : admission i l ≠ .errCipherInit := by
  cases i with
  | rst | seedw | stat | ctrr | bufr => simp [admission]
  | init | nextbits | seedr => cases l <;> simp [admission]

/-- The execution ends in `ERR_GEN` when the block a `NEXTBITS` needs is refused (R169). -/
theorem executionCheck_eq_errGen_iff (i : Instr) (env : Env) (e : Engine) : executionCheck i env e = .errGen ↔
    ∃ w, i = .nextbits w ∧ (e.pop = false ∨ 13 ≤ e.cur.toNat) ∧ env.encOk = false := by
  cases i with
  | rst | seedw | stat | ctrr | bufr | seedr => simp [executionCheck]
  | init => rw [executionCheck]; split_ifs <;> simp
  | nextbits w => simp [executionCheck]

/-- The execution ends in `ERR_CIPHER_INIT` when the key of an `INIT` is refused (R168). -/
theorem executionCheck_eq_errCipherInit_iff (i : Instr) (env : Env) (e : Engine) :
    executionCheck i env e = .errCipherInit ↔ ∃ n, i = .init n ∧ env.kinitOk = false := by
  cases i with
  | rst | seedw | stat | ctrr | bufr | seedr => simp [executionCheck]
  | nextbits => rw [executionCheck]; split_ifs <;> simp
  | init n => simp [executionCheck]

/-- `ERR_GEN` is the status of a `NEXTBITS` in `DEAD`, or of an accepted one whose block is refused (R169). -/
theorem commandStatus_eq_errGen_iff (i : Instr) (s : State) : commandStatus i s.env s.engine = .errGen ↔
    ∃ w, i = .nextbits w ∧ (s.engine.state = .dead ∨ (s.engine.state = .ready ∧ w.toNat ≤ 32 ∧
      (s.engine.pop = false ∨ 13 ≤ s.engine.cur.toNat) ∧ s.env.encOk = false)) := by
  have hoperand := ne_of_mem_of_not_mem (operandCheck_range i s.engine) (b := .errGen) (by decide)
  rw [commandStatus_eq_error_iff (by decide), admission_eq_errGen_iff, executionCheck_eq_errGen_iff]
  constructor
  · rintro (⟨w, rfl, hdead⟩ | ⟨hadm, hrefused | ⟨hop, w, rfl, hneed, henc⟩⟩)
    · exact ⟨w, rfl, .inl hdead⟩
    · exact absurd hrefused hoperand
    · exact ⟨w, rfl, .inr ⟨(admission_nextbits_eq_ok_iff w _).mp hadm, (operandCheck_nextbits_eq_ok_iff w _).mp hop,
        hneed, henc⟩⟩
  · rintro ⟨w, rfl, hdead | ⟨hready, hw, hneed, henc⟩⟩
    · exact .inl ⟨w, rfl, hdead⟩
    · exact .inr ⟨(admission_nextbits_eq_ok_iff w _).mpr hready, .inr ⟨(operandCheck_nextbits_eq_ok_iff w _).mpr hw, w,
        rfl, hneed, henc⟩⟩

/-- `ERR_CIPHER_INIT` is the status of a validated `INIT` whose key is refused (R168). -/
theorem commandStatus_eq_errCipherInit_iff (i : Instr) (s : State) :
    commandStatus i s.env s.engine = .errCipherInit ↔
      ∃ n, i = .init n ∧ s.engine.state = .uninit ∧ SeedValidated n s.engine ∧ s.env.kinitOk = false := by
  have hoperand := ne_of_mem_of_not_mem (operandCheck_range i s.engine) (b := .errCipherInit) (by decide)
  rw [commandStatus_eq_error_iff (by decide), executionCheck_eq_errCipherInit_iff]
  constructor
  · rintro (hrefused | ⟨hadm, hrefused | ⟨hop, n, rfl, hk⟩⟩)
    · exact absurd hrefused (admission_ne_errCipherInit i _)
    · exact absurd hrefused hoperand
    · exact ⟨n, rfl, (admission_init_eq_ok_iff n _).mp hadm, (operandCheck_init_eq_ok_iff n _).mp hop, hk⟩
  · rintro ⟨n, rfl, hst, hseed, hk⟩
    exact .inr ⟨(admission_init_eq_ok_iff n _).mpr hst, .inr ⟨(operandCheck_init_eq_ok_iff n _).mpr hseed, n, rfl, hk⟩⟩

/-- Settles O20: the status `ERR_GEN` by the checks; the two occurrences are the refusal in `DEAD` and the failed refresh;
a delivery from the buffer asks the cipher core for nothing. -/
theorem generationErrorExactlyWhen : Obligations.GenerationErrorExactlyWhen := by
  refine ⟨fun i s t h => (response_eq_error_iff h (by decide)).trans (commandStatus_eq_errGen_iff i s),
    fun w s t h hresp => ⟨fun hdead => ?_, fun hready => ?_⟩, fun w s hready hw hpop hcur => ?_⟩
  · exact Host.Outcome.next.inj (h.symm.trans (exec_nextbits_dead w hdead))
  · obtain ⟨w', hw', hdead | ⟨-, hw, hfail⟩⟩ :=
      (commandStatus_eq_errGen_iff _ s).mp ((response_eq_error_iff h (by decide)).mp hresp)
    · cases hready.symm.trans hdead
    · cases hw'
      obtain rfl := Host.Outcome.next.inj ((exec_nextbits_ends hready hw ((not_supplies_iff s).mpr hfail)).symm.trans h)
      exact ⟨rfl, le128_incrementCounter _⟩
  · have hfull : ¬(s.engine.pop = false ∨ 13 ≤ s.engine.cur.toNat) := not_or.mpr ⟨by simp [hpop], by omega⟩
    exact ⟨_, _, (exec_nextbits_buffered hready hw hfull).trans (deliverBits_inside _ s (by omega)), rfl, rfl⟩

/-- An error leaves the engine but for `LASTERR`, or it is the `ERR_GEN` of a failed refresh (R162). -/
theorem Aftermath.of_error {s t : State} {i : Instr} {st : Status} (h : Aftermath s t i st) (hst : st ≠ .ok) :
    t.engine = withLasterr st s.engine ∨
      (st = .errGen ∧ s.engine.state = .ready ∧ t.engine = (afterFailedRefresh s).engine) := by
  cases h with
  | reset | completed => exact absurd rfl hst
  | refused _ ht => exact .inl ht
  | ended hready ht => exact .inr ⟨rfl, hready, congrArg State.engine ht⟩

/-- `OK` leaves `LASTERR`, except under `RST` (R163). -/
theorem Aftermath.lasterr_of_ok {s t : State} {i : Instr} (h : Aftermath s t i .ok) (hrst : i ≠ .rst) :
    t.engine.lasterr = s.engine.lasterr := by
  cases h with
  | reset => exact absurd rfl hrst
  | completed _ ht => exact ht
  | refused hst => exact absurd rfl hst

/-- `RST` clears `LASTERR` (R163). -/
theorem Aftermath.lasterr_of_rst {s t : State} (h : Aftermath s t .rst .ok) : t.engine.lasterr = .ok := by
  cases h with
  | reset ht => rw [ht]; rfl
  | completed hrst => exact absurd rfl hrst
  | refused hst => exact absurd rfl hst

/-- An error is recorded in `LASTERR` (R163). -/
theorem Aftermath.lasterr_of_error {s t : State} {i : Instr} {st : Status} (h : Aftermath s t i st) (hst : st ≠ .ok) :
    t.engine.lasterr = st := by
  obtain ht | ⟨rfl, -, ht⟩ := h.of_error hst <;> rw [ht] <;> rfl

/-- Settles O30: the status `ERR_CIPHER_INIT` by the checks; the refresh that fails has another status. -/
theorem cipherRefusalChangesOnlyLasterr : Obligations.CipherRefusalChangesOnlyLasterr := by
  intro i s
  obtain ⟨t, v, ht, hresp, haftermath⟩ := completesWith_commandStatus i s
  have hiff := response_eq_error_iff (st := .errCipherInit) ht (by decide)
  refine ⟨t, ht, hiff.trans ?_, fun h => ?_⟩
  · simpa only [SeedValidated, and_assoc] using commandStatus_eq_errCipherInit_iff i s
  · rw [hiff.mp h] at haftermath
    obtain heng | ⟨hgen, -⟩ := haftermath.of_error (by decide)
    · exact heng
    · cases hgen

theorem isRst_iff_of_legal {r : Request} {i : Instr} (h : decode r.cmd = .legal i) : isRst r = true ↔ i = .rst := by
  simp [isRst, h]

/-- Settles O44: an illegal word records its error; a command leaves `LASTERR` as its aftermath says. -/
theorem lasterrRecordsTheLastError : Obligations.LasterrRecordsTheLastError := by
  intro r e s
  cases hdec : decode r.cmd with
  | illegal why =>
    exact ⟨_, _, _, serve_of_illegal hdec e s, rfl, fun _ => rfl, nofun, fun hrst => by simp [isRst, hdec] at hrst⟩
  | legal i =>
    obtain ⟨t, v, ht, hresp, haftermath⟩ := completesWith_commandStatus i (s.present r e)
    refine ⟨t, _, v, (serve_of_legal hdec e s).trans ht, hresp, haftermath.lasterr_of_error, fun hok hrst => ?_,
      fun hrst => ?_⟩
    · rw [hok] at haftermath
      exact haftermath.lasterr_of_ok fun hi => by simp [(isRst_iff_of_legal hdec).mpr hi] at hrst
    · obtain rfl := (isRst_iff_of_legal hdec).mp hrst
      exact ⟨rfl, haftermath.lasterr_of_rst⟩

/-- The two outcomes are answered alike and leave engines that differ in `LASTERR` alone (R162). -/
def AlikeButLasterr (o p : Host.Outcome State Fault Refusal) : Prop :=
  ∃ t u y, o = .next t ∧ p = .next u ∧ t.response = u.response ∧ u.engine = withLasterr y t.engine

theorem admission_withLasterr (i : Instr) (x : Status) (e : Engine) :
    admission i (withLasterr x e).state = admission i e.state := rfl

theorem operandCheck_withLasterr (i : Instr) (x : Status) (e : Engine) :
    operandCheck i (withLasterr x e) = operandCheck i e := by
  cases i <;> rfl

theorem Engine.supplied_withLasterr (x : Status) (e : Engine) :
    (withLasterr x e).supplied = withLasterr x e.supplied := by
  rw [Engine.supplied, Engine.supplied, apply_ite (withLasterr x)]
  rfl

/-- A `NEXTBITS` that delivers reads nothing of `LASTERR` and keeps it (R162). -/
theorem afterDelivery_withLasterr (w : BitVec 6) (x : Status) (s : State) :
    afterDelivery w (s.withEngine (withLasterr x s.engine)) =
      (afterDelivery w s).withEngine (withLasterr x (afterDelivery w s).engine) := by
  rw [afterDelivery, State.withEngine_engine, (sameStream_withLasterr x s.engine).nextWord_eq,
    Engine.supplied_withLasterr]
  rfl

/-- A command other than `STAT` that passed the checks on state and operand reads nothing of `LASTERR` (R162). -/
theorem exec_passed_alikeButLasterr {i : Instr} {s : State} (hstat : i ≠ .stat) (x : Status)
    (hadm : admission i s.engine.state = .ok) (hop : operandCheck i s.engine = .ok) :
    AlikeButLasterr (exec i s) (exec i (s.withEngine (withLasterr x s.engine))) := by
  cases i with
  | rst => exact ⟨_, _, .ok, exec_rst _, exec_rst _, rfl, rfl⟩
  | stat => exact absurd rfl hstat
  | seedw | ctrr | bufr => exact ⟨_, _, x, rfl, rfl, rfl, rfl⟩
  | seedr k =>
    have hst := (admission_seedr_eq_ok_iff k _).mp hadm
    have hk := (operandCheck_seedr_eq_ok_iff k _).mp hop
    exact ⟨_, _, x, exec_seedr_inside hst hk, exec_seedr_inside hst hk, rfl, rfl⟩
  | init n =>
    have hst := (admission_init_eq_ok_iff n _).mp hadm
    have hseed := (operandCheck_init_eq_ok_iff n _).mp hop
    cases hk : s.env.kinitOk with
    | true => exact ⟨_, _, x, exec_init_accepted hst hseed hk, exec_init_accepted hst hseed hk, rfl, rfl⟩
    | false =>
      exact ⟨_, _, .errCipherInit, exec_init_cipherRefused hst hseed hk, exec_init_cipherRefused hst hseed hk, rfl, rfl⟩
  | nextbits w =>
    have hst := (admission_nextbits_eq_ok_iff w _).mp hadm
    have hw := (operandCheck_nextbits_eq_ok_iff w _).mp hop
    by_cases hsupply : Supplies s
    · refine ⟨_, _, x, exec_nextbits_delivers hst hw hsupply, exec_nextbits_delivers hst hw hsupply, ?_, ?_⟩
      all_goals rw [afterDelivery_withLasterr]; rfl
    · exact ⟨_, _, .errGen, exec_nextbits_ends hst hw hsupply, exec_nextbits_ends hst hw hsupply, rfl, rfl⟩

/-- No command but `STAT` reads `LASTERR` (R162). -/
theorem exec_alikeButLasterr {i : Instr} (hstat : i ≠ .stat) (x : Status) (s : State) :
    AlikeButLasterr (exec i s) (exec i (s.withEngine (withLasterr x s.engine))) := by
  by_cases hadm : admission i s.engine.state = .ok
  · by_cases hop : operandCheck i s.engine = .ok
    · exact exec_passed_alikeButLasterr hstat x hadm hop
    · have hop' : operandCheck i (withLasterr x s.engine) ≠ .ok := operandCheck_withLasterr i x s.engine ▸ hop
      refine ⟨_, _, operandCheck i s.engine, exec_operand_refused hadm hop, exec_operand_refused hadm hop', ?_, ?_⟩
      all_goals rw [State.withEngine_engine, operandCheck_withLasterr]; rfl
  · exact ⟨_, _, admission i s.engine.state, exec_not_admitted hadm, exec_not_admitted hadm, rfl, rfl⟩

/-- Settles O45: an error leaves the engine as its aftermath says; no command but `STAT` reads `LASTERR`. -/
theorem errorsArePrecise : Obligations.ErrorsArePrecise := by
  refine ⟨fun r e s => ?_, fun r e s x hstat => ?_⟩
  · cases hdec : decode r.cmd with
    | illegal why => exact ⟨_, _, _, serve_of_illegal hdec e s, rfl, fun _ => .inl rfl⟩
    | legal i =>
      obtain ⟨t, v, ht, hresp, haftermath⟩ := completesWith_commandStatus i (s.present r e)
      refine ⟨t, _, v, (serve_of_legal hdec e s).trans ht, hresp, fun hst =>
        (haftermath.of_error hst).imp_right fun ⟨hgen, hready, heng⟩ => ⟨hgen, hready, ?_⟩⟩
      rw [heng]
      exact ⟨rfl, le128_incrementCounter _⟩
  · cases hdec : decode r.cmd with
    | illegal why => exact ⟨_, _, _, serve_of_illegal hdec e s, serve_of_illegal hdec e _, rfl, rfl⟩
    | legal i =>
      rw [serve_of_legal hdec, serve_of_legal hdec]
      exact exec_alikeButLasterr (fun hi => hstat (hi ▸ hdec)) x (s.present r e)

end Sys2Proof.Machine
end

section
/-! PROOFS of the family of reset and hazards (70_reset_and_hazards.md): what the engine shows before the first `INIT`, and
the transactions of one command. -/

namespace Sys2Proof.Machine

open Sys2Proof.Safety

/-- What the read-outs show of an engine in `UNINIT` is zero, apart from `SVAL` and `LASTERR` (R37, items 2, 3 and 5). -/
theorem uninit_reads_zero {E : Cipher} {e : Engine} (hinv : EngineInv E e) (h : e.state = .uninit) :
    e.klen = 0 ∧ e.ctr = Vector.replicate 16 0 ∧ e.buf = Vector.replicate 16 0 ∧ e.cur = 0 ∧ e.pop = false := by
  obtain ⟨-, hctr, hpop⟩ := hinv.uninit_zero h
  obtain ⟨hbuf, hcur⟩ := hinv.unpopulated hpop
  exact ⟨hinv.uninit_iff.mp h, hctr, hbuf, hcur, hpop⟩

/-- In `UNINIT` only the fields `LASTERR` and `SVAL` of the status word are left (R32, R193). -/
theorem statWord_toNat_of_uninit {E : Cipher} {e : Engine} (hinv : EngineInv E e) (h : e.state = .uninit) :
    (statWord e).toNat = 2 ^ 8 * e.lasterr.code.toNat + 2 ^ 18 * e.sval.toNat := by
  obtain ⟨hklen, -, -, hcur, hpop⟩ := uninit_reads_zero hinv h
  simp [statWord_toNat, LifeState.code, h, hklen, hcur, hpop]

/-- Settles O41: the two refusals need no invariant; the read-outs answer elements that are zero in `UNINIT`. -/
theorem beforeInitNothingIsServed : Obligations.BeforeInitNothingIsServed := by
  intro s ⟨hinv, _⟩ hst
  obtain ⟨-, hctr, hbuf, -, -⟩ := uninit_reads_zero hinv hst
  refine ⟨fun w => exec_nextbits_uninit w hst, fun k => exec_seedr_uninit k hst, fun k => ?_, fun k => ?_,
    statWord s.engine, exec_stat s, statWord_toNat_of_uninit hinv hst⟩
  · rw [exec_ctrr, hctr, blockWord_replicate_zero]
  · rw [exec_bufr, hbuf, blockWord_replicate_zero]

/-- Settles O47: an illegal word issues nothing; the transactions of a command are the cases of `exec_cipherLog`. -/
theorem atMostOneCipherTransaction : Obligations.AtMostOneCipherTransaction := by
  intro r e s
  cases hdec : decode r.cmd with
  | illegal why => exact ⟨_, serve_of_illegal hdec e s, .inl rfl⟩
  | legal i =>
    obtain ⟨t, -, -, ht, -⟩ := exec_completes i (s.present r e)
    refine ⟨t, (serve_of_legal hdec e s).trans ht, ?_⟩
    obtain hnone | ⟨n, rfl, -, -, hkey⟩ | ⟨w, rfl, -, -, hneed, henc⟩ := exec_cipherLog ht
    · exact .inl hnone
    · exact .inr (.inl ⟨n, _, _, _, rfl, hkey⟩)
    · exact .inr (.inr ⟨w, _, _, rfl, hneed, henc⟩)

end Sys2Proof.Machine
end

section
/-! PROOFS about the effect of a request: all that a request does to the machine is a function of its two words, the
draws and the engine (R12), and what that function leaves out is read by nothing. -/

namespace Sys2Proof.Machine

open Sys2Proof.Safety

/-- What a request does: the next engine, the response without its host, the transactions on the cipher port (R12). -/
structure Effect where
  engine : Engine
  status : Status
  rdata : Word
  txns : List CipherTxn

/-- The machine with an effect brought about, the response addressed to the host of the request (R78). -/
def Effect.apply (f : Effect) (s : State) : State :=
  { s with
    engine := f.engine
    response := some ⟨s.request.host, f.status, f.rdata⟩
    cipherLog := s.cipherLog ++ f.txns }

/-- A refusal: the record of the error and nothing else (R162, R163). -/
def refusal (st : Status) (e : Engine) : Effect := ⟨withLasterr st e, st, 0, []⟩

/-- The bits of the next word, from the engine supplied with a block if one is needed (R110). -/
def deliveryEffect (w : BitVec 6) (e : Engine) : Effect :=
  ⟨{ e.supplied with cur := e.supplied.cur + 4 }, .ok, alignBits e.nextWord w.toNat, e.supplyTxns⟩

/-- `DEAD`, at a refresh that the cipher core fails (R120). -/
def failureEffect (e : Engine) : Effect :=
  ⟨{ e with ctr := incrementCounter e.ctr, state := .dead, lasterr := .errGen }, .errGen, 0,
    [.enc (incrementCounter e.ctr) false]⟩

/-- The effect of a command that passed the checks on state and operand (R164). -/
def executionEffect (i : Instr) (d : Word) (env : Env) (e : Engine) : Effect :=
  match i with
  | .rst => ⟨Engine.reset, .ok, 0, []⟩
  | .seedw k => ⟨{ e with seedin := setSeedWord e.seedin k d, sval := setValid e.sval k }, .ok, 0, []⟩
  | .init n =>
    if env.kinitOk then ⟨constructed n e, .ok, 0, [.key n.toNat (e.seedin.toList.take n.toNat) true]⟩
    else ⟨withLasterr .errCipherInit e, .errCipherInit, 0, [.key n.toNat (e.seedin.toList.take n.toNat) false]⟩
  | .nextbits w =>
    if refreshNeeded e.pop e.cur = true → env.encOk = true then deliveryEffect w e else failureEffect e
  | .seedr k => ⟨e, .ok, seedWord e.seed k, []⟩
  | .stat => ⟨e, .ok, statWord e, []⟩
  | .ctrr k => ⟨e, .ok, blockWord e.ctr k, []⟩
  | .bufr k => ⟨e, .ok, blockWord e.buf k, []⟩

/-- The effect of a command, its checks in their order (R164). -/
def commandEffect (i : Instr) (d : Word) (env : Env) (e : Engine) : Effect :=
  if admission i e.state ≠ .ok then refusal (admission i e.state) e
  else if operandCheck i e ≠ .ok then refusal (operandCheck i e) e
  else executionEffect i d env e

/-- The effect of a request with command word `c` and operand word `d`. -/
def requestEffect (c d : Word) (env : Env) (e : Engine) : Effect :=
  match decode c with
  | .legal i => commandEffect i d env e
  | .illegal _ => refusal .errIllegal e

theorem executionEffect_nextbits_supplied {w : BitVec 6} {d : Word} {env : Env} {e : Engine}
    (h : refreshNeeded e.pop e.cur = true → env.encOk = true) :
    executionEffect (.nextbits w) d env e = deliveryEffect w e := if_pos h

theorem executionEffect_nextbits_failed {w : BitVec 6} {d : Word} {env : Env} {e : Engine}
    (h : ¬(refreshNeeded e.pop e.cur = true → env.encOk = true)) :
    executionEffect (.nextbits w) d env e = failureEffect e := if_neg h

theorem refusal_apply (st : Status) (s : State) : (refusal st s.engine).apply s = refusedWith st s := by
  simp [refusal, Effect.apply, refusedWith]

/-- An effect that leaves the engine and issues nothing is an answer. -/
theorem apply_of_answer (v : Word) (s : State) : (Effect.mk s.engine .ok v []).apply s = answeredWith v s := by
  simp [Effect.apply, answeredWith]

/-- A command that passed the checks on state and operand has its effect and no other. -/
theorem exec_eq_executionEffect {i : Instr} {s : State} (hadm : admission i s.engine.state = .ok)
    (hop : operandCheck i s.engine = .ok) :
    exec i s = .next ((executionEffect i s.request.wdata s.env s.engine).apply s) := by
  cases i with
  | rst | seedw => simp [exec, execRst, execSeedw, executionEffect, Effect.apply, respond_eq, resetEngine,
      State.withEngine]
  | stat | ctrr | bufr => exact congrArg _ (apply_of_answer _ s).symm
  | seedr k =>
    have hst := (admission_seedr_eq_ok_iff k _).mp hadm
    have hk := (operandCheck_seedr_eq_ok_iff k _).mp hop
    exact (exec_seedr_inside hst hk).trans (congrArg _ (apply_of_answer _ s).symm)
  | init n =>
    have hst := (admission_init_eq_ok_iff n _).mp hadm
    have hseed := (operandCheck_init_eq_ok_iff n _).mp hop
    cases hk : s.env.kinitOk with
    | true => rw [exec_init_accepted hst hseed hk, executionEffect, if_pos hk]; rfl
    | false => rw [exec_init_cipherRefused hst hseed hk, executionEffect, if_neg (by simp [hk])]; rfl
  | nextbits w =>
    have hst := (admission_nextbits_eq_ok_iff w _).mp hadm
    have hw := (operandCheck_nextbits_eq_ok_iff w _).mp hop
    by_cases hsupply : Supplies s
    · rw [exec_nextbits_delivers hst hw hsupply, executionEffect_nextbits_supplied hsupply]; rfl
    · rw [exec_nextbits_ends hst hw hsupply, executionEffect_nextbits_failed hsupply]; rfl

/-- A command reads the engine, its draws and the operand word, and does what its effect says (R12). -/
theorem exec_eq_effect (i : Instr) (s : State) :
    exec i s = .next ((commandEffect i s.request.wdata s.env s.engine).apply s) := by
  rw [commandEffect]
  split_ifs with hadm hop
  · rw [exec_not_admitted hadm, refusal_apply]
  · rw [exec_operand_refused (not_not.mp hadm) hop, refusal_apply]
  · exact exec_eq_executionEffect (not_not.mp hadm) (not_not.mp hop)

/-- A request is a function of its two words, the draws and the engine (R12). -/
theorem serve_eq_effect (r : Request) (env : Env) (s : State) :
    serve r env s = .next ((requestEffect r.cmd r.wdata env s.engine).apply (s.present r env)) := by
  rw [requestEffect]
  cases hdec : decode r.cmd with
  | legal i => exact (serve_of_legal hdec env s).trans (exec_eq_effect i _)
  | illegal why =>
    rw [serve_of_illegal hdec]
    exact congrArg _ (refusal_apply .errIllegal (s.present r env)).symm

/-- No command but `SEEDW` reads the operand word (R70). -/
theorem commandEffect_wdata {i : Instr} (h : ∀ k, i ≠ .seedw k) (d d' : Word) (env : Env) (e : Engine) :
    commandEffect i d env e = commandEffect i d' env e := by
  cases i with
  | seedw k => exact absurd rfl (h k)
  | rst | init | nextbits | seedr | stat | ctrr | bufr => rfl

/-- Settles O7: the effect of a request reads the operand word for `SEEDW` only. -/
theorem onlySeedwReadsTheOperandWord : Obligations.OnlySeedwReadsTheOperandWord := by
  intro r d env s hseedw
  have heffect : requestEffect r.cmd d env s.engine = requestEffect r.cmd r.wdata env s.engine := by
    rw [requestEffect, requestEffect]
    cases hdec : decode r.cmd with
    | illegal why => rfl
    | legal i => exact commandEffect_wdata (fun k hi => hseedw k (hi ▸ hdec)) ..
  refine ⟨_, _, serve_eq_effect .., serve_eq_effect .., ?_⟩
  rw [heffect]
  exact ⟨rfl, rfl, rfl⟩

/-- Settles O54: the host is no argument of the effect. -/
theorem hostNumberOnlyRoutesTheResponse : Obligations.HostNumberOnlyRoutesTheResponse :=
  fun _ _ _ _ => ⟨_, _, _, _, serve_eq_effect .., serve_eq_effect .., rfl, rfl, rfl, rfl⟩

/-- Machines with the same engine answer a request alike and again hold the same engine (R12). -/
theorem serve_of_engine_eq (r : Request) (env : Env) {s₁ s₂ : State} (h : s₁.engine = s₂.engine) :
    ∃ a t₁ t₂, serve r env s₁ = .next t₁ ∧ serve r env s₂ = .next t₂ ∧ t₁.response = some a ∧ t₂.response = some a ∧
      t₁.engine = t₂.engine := by
  refine ⟨_, _, _, serve_eq_effect .., serve_eq_effect .., rfl, ?_⟩
  rw [h]
  exact ⟨rfl, rfl⟩

/-- Machines with the same engine answer a run alike and end with the same engine (R132, Determinism). -/
theorem serveAll_of_engine_eq (requests : List (Request × Env)) {s₁ s₂ : State} (h : s₁.engine = s₂.engine) :
    ∃ answers t₁ t₂, serveAll requests s₁ = some (answers, t₁) ∧ serveAll requests s₂ = some (answers, t₂) ∧
      t₁.engine = t₂.engine := by
  induction requests generalizing s₁ s₂ with
  | nil => exact ⟨[], s₁, s₂, rfl, rfl, h⟩
  | cons x requests ih =>
    obtain ⟨a, u₁, u₂, hu₁, hu₂, ha₁, ha₂, hu⟩ := serve_of_engine_eq x.1 x.2 h
    obtain ⟨answers, t₁, t₂, hall₁, hall₂, hend⟩ := ih hu
    exact ⟨a :: answers, t₁, t₂, serveAll_cons hu₁ ha₁ hall₁, serveAll_cons hu₂ ha₂ hall₂, hend⟩

/-- Settles O24: after the `RST` both machines hold the reset engine. -/
theorem resetForgetsTheHistory : Obligations.ResetForgetsTheHistory := by
  intro r env requests s₁ s₂ hrst
  have hfirst (s : State) : serve r env s = .next (respond 0 (resetEngine (s.present r env))) :=
    (serve_of_legal (of_decide_eq_true hrst) env s).trans (exec_rst _)
  obtain ⟨answers, t₁, t₂, hall₁, hall₂, hend⟩ := serveAll_of_engine_eq requests
    (s₁ := respond 0 (resetEngine (s₁.present r env))) (s₂ := respond 0 (resetEngine (s₂.present r env))) rfl
  exact ⟨_, t₁, t₂, serveAll_cons (hfirst s₁) rfl hall₁, serveAll_cons (hfirst s₂) rfl hall₂, hend⟩

/-- The engine with another content of the staging area (R22). -/
def withSeedin (a : Bytes 32) (e : Engine) : Engine := { e with seedin := a }

theorem sameStream_withSeedin (a : Bytes 32) (e : Engine) : SameStream e (withSeedin a e) :=
  ⟨rfl, ⟨rfl, rfl⟩, rfl, rfl, rfl, rfl⟩

/-- The two effects are answered alike. -/
def SameAnswer (f g : Effect) : Prop := f.status = g.status ∧ f.rdata = g.rdata

/-- No command answers from the staging area: what `INIT` hands to the cipher core is no answer (R22, R61). -/
theorem executionEffect_withSeedin (i : Instr) (d : Word) (env : Env) (e : Engine) (a : Bytes 32) :
    SameAnswer (executionEffect i d env (withSeedin a e)) (executionEffect i d env e) := by
  cases i with
  | rst | seedw | seedr | stat | ctrr | bufr => exact ⟨rfl, rfl⟩
  | init n => simp only [executionEffect]; split_ifs <;> exact ⟨rfl, rfl⟩
  | nextbits w =>
    have hdelivery : SameAnswer (deliveryEffect w (withSeedin a e)) (deliveryEffect w e) :=
      ⟨rfl, congrArg (alignBits · w.toNat) (sameStream_withSeedin a e).nextWord_eq⟩
    by_cases hsupply : refreshNeeded e.pop e.cur = true → env.encOk = true
    · rwa [executionEffect_nextbits_supplied (e := withSeedin a e) hsupply, executionEffect_nextbits_supplied hsupply]
    · rw [executionEffect_nextbits_failed (e := withSeedin a e) hsupply, executionEffect_nextbits_failed hsupply]
      exact ⟨rfl, rfl⟩

theorem operandCheck_withSeedin (i : Instr) (a : Bytes 32) (e : Engine) :
    operandCheck i (withSeedin a e) = operandCheck i e := by
  cases i <;> rfl

/-- The checks before the execution do not look at the staging area either (R164). -/
theorem commandEffect_withSeedin (i : Instr) (d : Word) (env : Env) (e : Engine) (a : Bytes 32) :
    SameAnswer (commandEffect i d env (withSeedin a e)) (commandEffect i d env e) := by
  have hadm : admission i (withSeedin a e).state = admission i e.state := rfl
  rw [commandEffect, commandEffect, hadm, operandCheck_withSeedin]
  split_ifs
  · exact ⟨rfl, rfl⟩
  · exact ⟨rfl, rfl⟩
  · exact executionEffect_withSeedin ..

/-- Settles O55: the answer of an effect does not depend on the staging area. -/
theorem stagingAreaIsUnreadable : Obligations.StagingAreaIsUnreadable := by
  intro r env s a
  obtain ⟨hstatus, hrdata⟩ : SameAnswer (requestEffect r.cmd r.wdata env (withSeedin a s.engine))
      (requestEffect r.cmd r.wdata env s.engine) := by
    rw [requestEffect, requestEffect]
    cases decode r.cmd with
    | illegal why => exact ⟨rfl, rfl⟩
    | legal i => exact commandEffect_withSeedin ..
  refine ⟨_, _, serve_eq_effect r env s, serve_eq_effect .., ?_⟩
  exact congrArg₂ (fun st v => some (Response.mk r.host st v)) hstatus.symm hrdata.symm

end Sys2Proof.Machine
end

section
/-! PROOFS about one step of the whole machine: what it does to the hosts, and whom it serves (R200, R201, R202). -/

namespace Sys2Proof.Machine

open Sys2Proof.Safety

@[simp] theorem deliver_engine (s : State) : (deliver s).engine = s.engine := by rw [deliver]; split <;> rfl
@[simp] theorem deliver_request (s : State) : (deliver s).request = s.request := by rw [deliver]; split <;> rfl
@[simp] theorem deliver_response (s : State) : (deliver s).response = s.response := by rw [deliver]; split <;> rfl
@[simp] theorem deliver_cipherLog (s : State) : (deliver s).cipherLog = s.cipherLog := by rw [deliver]; split <;> rfl
@[simp] theorem deliver_inputs (s : State) : (deliver s).inputs = s.inputs := by rw [deliver]; split <;> rfl

theorem deliver_hosts {s : State} {a : Response} (h : s.response = some a) :
    (deliver s).hosts = s.hosts.modify a.host (HostPort.receive a) := by
  rw [deliver, h]

/-- With no reset and nothing outstanding the step waits (R202; log entry 12). -/
theorem step_of_idle {s : State} (hreset : (nextInput s).hardReset = false)
    (hidle : arbitrate (nextInput s).grant (beginStep s).hosts = none) : step s = .next (beginStep s) := by
  rw [step, if_neg (Bool.eq_false_iff.mp hreset), hidle]

/-- With no reset the step serves the request granted and delivers its response (R202). -/
theorem step_of_grant {s : State} {h : Nat} {c : Command} (hreset : (nextInput s).hardReset = false)
    (hgrant : arbitrate (nextInput s).grant (beginStep s).hosts = some (h, c)) :
    step s = onNext deliver (serve ⟨h, c.cmd, c.wdata⟩ (nextInput s).env (beginStep s)) := by
  rw [step, if_neg (Bool.eq_false_iff.mp hreset), hgrant]

/-- Settles O51: the request granted is served as its word is decoded. -/
theorem stepRunsTheDecodedCommand : Obligations.StepRunsTheDecodedCommand := by
  intro s h c hreset hgrant
  rw [step_of_grant hreset hgrant]
  refine ⟨fun i hdec => ?_, fun hdec => ?_⟩
  · rw [serve_of_legal (r := ⟨h, c.cmd, c.wdata⟩) hdec]
  · rw [serve_of_instr?_eq_none (r := ⟨h, c.cmd, c.wdata⟩) hdec, onNext_next]

/-- Settles O35: the reset step issues the hosts' requests, which is no change of what they have to be served. -/
theorem hardwareResetLeavesTheHosts : Obligations.HardwareResetLeavesTheHosts := by
  intro s hreset
  refine ⟨_, step_of_hardReset hreset, rfl, rfl, fun h p hp => ⟨p.issue, ?_, issue_received p, issue_todo p⟩⟩
  rw [resetEngine_hosts, beginStep_hosts, List.getElem?_map, hp, Option.map_some]

/-- A host has its first command outstanding once the step has begun (R200). -/
theorem beginStep_hosts_outstanding {s : State} {h : Nat} {p : HostPort} (hp : s.hosts[h]? = some p) :
    (beginStep s).hosts[h]? = some p.issue ∧ p.issue.outstanding = (todo p).head? :=
  ⟨by rw [beginStep_hosts, List.getElem?_map, hp, Option.map_some], issue_outstanding p⟩

/-- Settles O53: the choice of the host, without a reset, grants its first command. -/
theorem anyPendingRequestMayBeGranted : Obligations.AnyPendingRequestMayBeGranted := by
  intro s h p c rest env hp htodo
  obtain ⟨hbegun, hhead⟩ := beginStep_hosts_outstanding (s := { s with inputs := ⟨false, h, env⟩ :: s.inputs }) hp
  rw [htodo] at hhead
  exact ⟨⟨false, h, env⟩, rfl, step_of_grant rfl (arbitrate_preferred hbegun hhead)⟩

/-- The arbiter grants nothing exactly when no host has a command left (R200, R201). -/
theorem arbitrate_beginStep_none_iff (g : Nat) (s : State) :
    arbitrate g (beginStep s).hosts = none ↔ ∀ p ∈ s.hosts, todo p = [] := by
  simp only [arbitrate_none, beginStep_hosts, List.forall_mem_map, issue_outstanding, List.head?_eq_none_iff]

/-- Receiving its response, a host is done with the first command it had to be served (R200). -/
theorem todo_receive_issue (a : Response) (p : HostPort) : todo (p.issue.receive a) = (todo p).tail := by
  rcases p with ⟨program, _ | c, received⟩ <;> rcases program with _ | ⟨d, rest⟩ <;> rfl

theorem received_receive_issue (a : Response) (p : HostPort) : (p.issue.receive a).received = p.received ++ [a] := by
  rw [HostPort.receive, issue_received]

/-- The hosts after a step that answered `a` (R78, R200). -/
def hostsAfter (a : Response) (hosts : List HostPort) : List HostPort :=
  (hosts.map HostPort.issue).modify a.host (HostPort.receive a)

/-- The host served has received its response; the others have at most issued (R65, R78). -/
theorem getElem?_hostsAfter {hosts : List HostPort} {j : Nat} {p : HostPort} (hp : hosts[j]? = some p) (a : Response) :
    (hostsAfter a hosts)[j]? = some (if a.host = j then p.issue.receive a else p.issue) := by
  simp [hostsAfter, List.getElem?_modify, hp]

/-- Only the host served has one command less (R65). -/
theorem map_todo_hostsAfter (a : Response) (hosts : List HostPort) :
    (hostsAfter a hosts).map todo = (hosts.map todo).modify a.host List.tail := by
  refine List.ext_getElem? fun j => ?_
  cases hp : hosts[j]? with
  | none => simp [hostsAfter, List.getElem?_modify, hp]
  | some p =>
    rw [List.getElem?_map, getElem?_hostsAfter hp, List.getElem?_modify, List.getElem?_map, hp]
    by_cases hj : a.host = j <;> simp [hj, todo_receive_issue]

/-- The step served the first command `c` of a host with the answer `a`; `u` is the machine before the delivery. -/
structure ServedStep (s : State) (c : Command) (a : Response) (u : State) : Prop where
  first : ∃ p, s.hosts[a.host]? = some p ∧ (todo p).head? = some c
  served : serve ⟨a.host, c.cmd, c.wdata⟩ (nextInput s).env (beginStep s) = .next u
  answered : u.response = some a
  step_eq : step s = .next (deliver u)

/-- A step without a reset serves some host that has a command left (R201, R202). -/
theorem step_serves {s : State} (hreset : (nextInput s).hardReset = false) (hpending : ∃ p ∈ s.hosts, todo p ≠ []) :
    ∃ c a u, ServedStep s c a u := by
  cases hgrant : arbitrate (nextInput s).grant (beginStep s).hosts with
  | none =>
    obtain ⟨p, hp, htodo⟩ := hpending
    exact absurd ((arbitrate_beginStep_none_iff _ s).mp hgrant p hp) htodo
  | some granted =>
    obtain ⟨h, c⟩ := granted
    obtain ⟨q, hq, hc⟩ := arbitrate_spec hgrant
    rw [beginStep_hosts, List.getElem?_map, Option.map_eq_some_iff] at hq
    obtain ⟨p, hp, rfl⟩ := hq
    rw [issue_outstanding] at hc
    have hserve := serve_eq_effect ⟨h, c.cmd, c.wdata⟩ (nextInput s).env (beginStep s)
    exact ⟨c, _, _, ⟨p, hp, hc⟩, hserve, rfl, by rw [step_of_grant hreset hgrant, hserve, onNext_next]⟩

/-- Serving a request touches neither the hosts nor the inputs, and leaves the request on the port (R12). -/
theorem serve_frame {r : Request} {env : Env} {s t : State} (h : serve r env s = .next t) :
    t.hosts = s.hosts ∧ t.inputs = s.inputs ∧ t.request = r := by
  obtain rfl := Host.Outcome.next.inj ((serve_eq_effect r env s).symm.trans h)
  exact ⟨rfl, rfl, rfl⟩

theorem ServedStep.hosts_eq {s u : State} {c : Command} {a : Response} (h : ServedStep s c a u) :
    (deliver u).hosts = hostsAfter a s.hosts := by
  obtain ⟨hhosts, -, -⟩ := serve_frame h.served
  rw [deliver_hosts h.answered, hhosts]
  rfl

/-- Settles O50: a step resets, waits or serves. -/
theorem machineAlwaysSteps : Obligations.MachineAlwaysSteps := by
  intro s
  cases hreset : (nextInput s).hardReset with
  | true => exact ⟨_, step_of_hardReset hreset, nofun⟩
  | false =>
    by_cases hpending : ∃ p ∈ s.hosts, todo p ≠ []
    · obtain ⟨c, a, u, -, -, ha, hstep⟩ := step_serves hreset hpending
      refine ⟨_, hstep, fun _ => ⟨fun hnone => ?_, fun _ => by simp [ha]⟩⟩
      obtain ⟨p, hp, htodo⟩ := hpending
      exact absurd (hnone p hp) htodo
    · have hnone : ∀ p ∈ s.hosts, todo p = [] := by simpa using hpending
      exact ⟨_, step_of_idle hreset ((arbitrate_beginStep_none_iff _ s).mpr hnone),
        fun _ => ⟨fun _ => ⟨rfl, rfl, rfl⟩, fun h => absurd h hpending⟩⟩

/-- Settles O52: the host served receives its response, the others have at most issued. -/
theorem oneCommandOfOneHostPerStep : Obligations.OneCommandOfOneHostPerStep := by
  intro s hreset hpending
  obtain ⟨c, a, u, h⟩ := step_serves hreset hpending
  obtain ⟨p, hp, hhead⟩ := h.first
  obtain ⟨rest, hrest⟩ := List.head?_eq_some_iff.mp hhead
  obtain ⟨-, -, hreq⟩ := serve_frame h.served
  refine ⟨_, a.host, p, c, rest, a, h.step_eq, hp, hrest, rfl, by rw [deliver_request, hreq], ?_, ?_,
    fun j hj q hq => ?_⟩
  all_goals rw [h.hosts_eq]
  · simp [hostsAfter]
  · refine ⟨_, (getElem?_hostsAfter hp a).trans (congrArg some (if_pos rfl)), ?_, received_receive_issue a p⟩
    rw [todo_receive_issue, hrest, List.tail_cons]
  · exact ⟨_, (getElem?_hostsAfter hq a).trans (congrArg some (if_neg hj.symm)), issue_todo q, issue_received q⟩

end Sys2Proof.Machine
end

section
/-! PROOFS of the invariants of every reachable state (10_state.md, section 7): the reset state meets them, and the
effect of every request keeps them. -/

namespace Sys2Proof.Machine

open Sys2Proof.Safety

/-- A refresh is counted if the cipher core delivers (R62). -/
@[simp] theorem completedRefreshes_enc (log : List CipherTxn) (block : Block) (ok : Bool) :
    completedRefreshes (log ++ [.enc block ok]) = completedRefreshes log + ok.toNat := by
  cases ok <;> simp [completedRefreshes]

/-- A key load that succeeds starts the count again (R61). -/
@[simp] theorem completedRefreshes_key (log : List CipherTxn) (n : Nat) (bytes : List Byte) (ok : Bool) :
    completedRefreshes (log ++ [.key n bytes ok]) = if ok then 0 else completedRefreshes log := by
  cases ok <;> simp [completedRefreshes]

/-- The invariants speak of the stream and of nothing else in the engine (R37). -/
theorem engineInv_of_sameStream {E : Cipher} {e f : Engine} (h : EngineInv E e) (hsame : SameStream e f) :
    EngineInv E f := by
  obtain ⟨state, seedin, sval, seed, klen, ctr, buf, cur, pop, lasterr⟩ := f
  obtain ⟨rfl, ⟨rfl, rfl⟩, rfl, rfl, rfl, rfl⟩ := hsame
  exact { h with }

/-- The invariants stay where the stream and the number of completed refreshes stay. -/
theorem machineInv_of_sameStream {s t : State} (h : MachineInv s) (hsame : SameStream s.engine t.engine)
    (hlog : completedRefreshes t.cipherLog = completedRefreshes s.cipherLog) : MachineInv t := by
  obtain ⟨hengine, hready, hdead⟩ := h
  refine ⟨engineInv_of_sameStream hengine hsame, fun hst => ?_, fun hst => ?_⟩
  all_goals rw [hsame.state] at hst; rw [hsame.counter, hlog]
  · exact hready hst
  · exact hdead hst

/-- The reset values are those the invariants ask for in `UNINIT` (R35, R37). -/
theorem engineInv_reset (E : Cipher) : EngineInv E Engine.reset where
  uninit_iff := ⟨fun _ => rfl, fun _ => rfl⟩
  klen_legal := .inl rfl
  uninit_zero _ := ⟨rfl, rfl, rfl⟩
  cursor := .inl rfl
  populated_cursor := nofun
  unpopulated _ := ⟨rfl, rfl⟩
  unpopulated_counter _ _ := rfl
  unpopulated_dead _ := nofun
  buffer := nofun
  dead_buffer := nofun
  seed_tail i _ := Vector.getElem_replicate i.isLt

/-- A machine with the reset engine meets the invariants: in `UNINIT` nothing is said of the refreshes (R37). -/
theorem machineInv_of_reset {s : State} (h : s.engine = Engine.reset) : MachineInv s := by
  refine ⟨h ▸ engineInv_reset _, ?_, ?_⟩ <;> rw [h] <;> nofun

/-- Settles O57: the machine after reset holds the reset engine. -/
theorem resetMeetsTheEngineInvariants : Obligations.ResetMeetsTheEngineInvariants :=
  fun _ => machineInv_of_reset rfl

theorem legalKlen_ne_zero {n : BitVec 6} (h : n = 16 ∨ n = 24 ∨ n = 32) : n ≠ 0 := by
  obtain rfl | rfl | rfl := h <;> decide

/-- A new engine in `READY` meets the invariants before its first refresh (R92). -/
theorem engineInv_constructed (E : Cipher) {n : BitVec 6} (hn : n = 16 ∨ n = 24 ∨ n = 32) (e : Engine) :
    EngineInv E (constructed n e) where
  uninit_iff := ⟨nofun, fun h => absurd h (legalKlen_ne_zero hn)⟩
  klen_legal := .inr hn
  uninit_zero := nofun
  cursor := .inl rfl
  populated_cursor := nofun
  unpopulated _ := ⟨rfl, rfl⟩
  unpopulated_counter _ _ := rfl
  unpopulated_dead := nofun
  buffer := nofun
  dead_buffer := nofun
  seed_tail i hi := (captureBytes_get e.seedin n.toNat i.val i.isLt).trans (if_neg (Nat.not_lt.mpr hi))

/-- A populated buffer has one to four words consumed (R37, item 4). -/
theorem cursor_of_populated {E : Cipher} {e : Engine} (h : EngineInv E e) (hpop : e.pop = true) :
    e.cur.toNat = 4 ∨ e.cur.toNat = 8 ∨ e.cur.toNat = 12 ∨ e.cur.toNat = 16 := by
  obtain hcur | hcur | hcur | hcur | hcur := h.cursor
  · exact absurd hcur (h.populated_cursor hpop)
  all_goals simp [hcur]

theorem consumedWords_range {E : Cipher} {e : Engine} (h : EngineInv E e) :
    1 ≤ consumedWords e ∧ consumedWords e ≤ 4 := by
  rw [consumedWords]
  split_ifs with hpop
  · have := cursor_of_populated h hpop
    omega
  · decide

/-- In `READY` the engine stands at the last word consumed (R27, R37). -/
theorem lastWord_of_engineInv {e : Engine} (h : EngineInv Config.cipher e) (hready : e.state = .ready) :
    LastWord e e (consumedWords e - 1) := by
  have hcounter := le128_lt e.ctr
  have hrange := consumedWords_range h
  refine ⟨⟨rfl, rfl⟩, by omega, fun hpop => ⟨?_, h.buffer hready hpop⟩, fun hpop => ?_⟩
  · have := cursor_of_populated h hpop
    rw [consumedWords, if_pos hpop]
    omega
  · rw [consumedWords, hpop]
    rfl

/-- What is left to show of an engine in `READY` whose buffer is populated (R37, items 4 and 6). -/
theorem engineInv_of_populated {E : Cipher} {e : Engine} (hready : e.state = .ready) (hpop : e.pop = true)
    (hklen : e.klen ≠ 0 ∧ legalKlen e.klen) (htail : ∀ i : Fin 32, e.klen.toNat ≤ i.val → e.seed[i] = 0)
    (hcur : e.cur = 4 ∨ e.cur = 8 ∨ e.cur = 12 ∨ e.cur = 16) (hbuf : e.buf = E e.klen.toNat e.key e.ctr) :
    EngineInv E e where
  uninit_iff := ⟨fun h => (nomatch hready.symm.trans h), fun h => absurd h hklen.left⟩
  klen_legal := hklen.right
  uninit_zero h := nomatch hready.symm.trans h
  cursor := .inr hcur
  populated_cursor _ := by obtain h | h | h | h := hcur <;> rw [h] <;> decide
  unpopulated h := nomatch hpop.symm.trans h
  unpopulated_counter h := nomatch hpop.symm.trans h
  unpopulated_dead h := nomatch hpop.symm.trans h
  buffer _ _ := hbuf
  dead_buffer h := nomatch hready.symm.trans h
  seed_tail := htail

/-- A delivery leaves the block of the counter in the buffer and the cursor behind a word of it (R110). -/
theorem engineInv_delivery {e : Engine} (h : EngineInv Config.cipher e) (hready : e.state = .ready) (w : BitVec 6) :
    EngineInv Config.cipher (deliveryEffect w e).engine := by
  obtain ⟨⟨hseed, hklen⟩, -, hcur, hpop, hbuf⟩ := (lastWord_of_engineInv h hready).supplied
  have hcursor : e.supplied.cur + 4 = 4 ∨ e.supplied.cur + 4 = 8 ∨ e.supplied.cur + 4 = 12 ∨
      e.supplied.cur + 4 = 16 := by
    bv_omega
  have hbuilt : e.klen ≠ 0 := mt h.uninit_iff.mpr (by simp [hready])
  refine engineInv_of_populated (e.supplied_state.trans hready) hpop ?_ ?_ hcursor hbuf
  · exact hklen.symm ▸ ⟨hbuilt, h.klen_legal⟩
  · simp only [deliveryEffect, hseed, hklen]
    exact h.seed_tail

/-- A failed refresh leaves the block consumed before it, and the counter one ahead of that block (R120). -/
theorem engineInv_failure {E : Cipher} {e : Engine} (h : EngineInv E e) (hready : e.state = .ready)
    (hneed : refreshNeeded e.pop e.cur = true) : EngineInv E (failureEffect e).engine where
  uninit_iff := ⟨nofun, fun hklen => (nomatch hready.symm.trans (h.uninit_iff.mpr hklen))⟩
  klen_legal := h.klen_legal
  uninit_zero := nofun
  cursor := h.cursor
  populated_cursor := h.populated_cursor
  unpopulated := h.unpopulated
  unpopulated_counter _ hdead := absurd rfl hdead
  unpopulated_dead hpop _ := by
    have hctr : e.ctr = Vector.replicate 16 0 := h.unpopulated_counter hpop (by simp [hready])
    rw [failureEffect, le128_incrementCounter, hctr]
    decide
  buffer := nofun
  dead_buffer _ hpop := by
    have hcur : e.cur = 16 := by
      obtain hunpop | hcur := (refreshNeeded_iff _ _).mp hneed
      · cases hunpop.symm.trans hpop
      · have hwords := cursor_of_populated h hpop
        bv_omega
    exact ⟨hcur, e.ctr, le128_incrementCounter e.ctr, h.buffer hready hpop⟩
  seed_tail := h.seed_tail

/-- The counter and the completed refreshes are supplied in step (R37, item 7). -/
theorem le128_supplied_ctr {e : Engine} {log : List CipherTxn}
    (h : le128 e.ctr = completedRefreshes log % 2 ^ 128) :
    le128 e.supplied.ctr = completedRefreshes (log ++ e.supplyTxns) % 2 ^ 128 := by
  rw [Engine.supplied, Engine.supplyTxns]
  split_ifs
  · rw [le128_incrementCounter, completedRefreshes_enc, h]
    exact Nat.mod_add_mod ..
  · rw [List.append_nil, h]

/-- A command that passed the checks on state and operand keeps the invariants. -/
theorem machineInv_executionEffect {i : Instr} {s : State} (h : MachineInv s) (hadm : admission i s.engine.state = .ok)
    (hop : operandCheck i s.engine = .ok) :
    MachineInv ((executionEffect i s.request.wdata s.env s.engine).apply s) := by
  have hsame {f : Effect} (hstream : SameStream s.engine f.engine) (htxns : f.txns = []) : MachineInv (f.apply s) :=
    machineInv_of_sameStream h hstream (by simp [Effect.apply, htxns])
  cases i with
  | rst => exact machineInv_of_reset rfl
  | seedw => exact hsame ⟨rfl, ⟨rfl, rfl⟩, rfl, rfl, rfl, rfl⟩ rfl
  | seedr | stat | ctrr | bufr => exact hsame (.refl _) rfl
  | init n =>
    rw [executionEffect]
    split_ifs with hk
    · obtain ⟨hlen, -⟩ := (operandCheck_init_eq_ok_iff n _).mp hop
      refine ⟨engineInv_constructed _ hlen _, fun _ => ?_, nofun⟩
      simp only [Effect.apply, completedRefreshes_key]
      exact (by decide : le128 (Vector.replicate 16 0) = 0 % 2 ^ 128)
    · exact machineInv_of_sameStream h (sameStream_withLasterr _ _) (completedRefreshes_key ..)
  | nextbits w =>
    have hready := (admission_nextbits_eq_ok_iff w _).mp hadm
    obtain ⟨hengine, hcounter, -⟩ := h
    by_cases hsupply : Supplies s
    · rw [executionEffect_nextbits_supplied hsupply]
      have hst : (deliveryEffect w s.engine).engine.state = .ready := s.engine.supplied_state.trans hready
      exact ⟨engineInv_delivery hengine hready w, fun _ => le128_supplied_ctr (hcounter hready),
        fun hdead => nomatch hst.symm.trans hdead⟩
    · rw [executionEffect_nextbits_failed hsupply]
      refine ⟨engineInv_failure hengine hready (Classical.not_imp.mp hsupply).left, nofun, fun _ => ?_⟩
      simp only [Effect.apply, failureEffect, le128_incrementCounter, completedRefreshes_enc, hcounter hready]
      exact Nat.mod_add_mod ..

theorem machineInv_refusal {s : State} (h : MachineInv s) (st : Status) : MachineInv ((refusal st s.engine).apply s) :=
  machineInv_of_sameStream h (sameStream_withLasterr _ _) (by simp [Effect.apply, refusal])

/-- Every request keeps the invariants (R37). -/
theorem machineInv_serve {r : Request} {env : Env} {s t : State} (h : MachineInv s) (hserve : serve r env s = .next t) :
    MachineInv t := by
  have hpresent : MachineInv (s.present r env) := machineInv_of_sameStream h (.refl _) rfl
  obtain rfl := Host.Outcome.next.inj ((serve_eq_effect r env s).symm.trans hserve)
  rw [requestEffect]
  cases decode r.cmd with
  | illegal why => exact machineInv_refusal hpresent _
  | legal i =>
    simp only [commandEffect]
    split_ifs with hadm hop
    · exact machineInv_refusal hpresent _
    · exact machineInv_refusal hpresent _
    · exact machineInv_executionEffect hpresent (not_not.mp hadm) (not_not.mp hop)

/-- Settles O56: a step resets, waits, or delivers after a request that keeps the invariants. -/
theorem everyStepKeepsTheEngineInvariants : Obligations.EveryStepKeepsTheEngineInvariants := by
  intro s t hinv hstep
  have hbegun : MachineInv (beginStep s) := machineInv_of_sameStream hinv (.refl _) rfl
  have hnext {u : State} (hu : step s = .next u) : u = t := Host.Outcome.next.inj (hu.symm.trans hstep)
  cases hreset : (nextInput s).hardReset with
  | true => exact hnext (step_of_hardReset hreset) ▸ machineInv_of_reset rfl
  | false =>
    cases hgrant : arbitrate (nextInput s).grant (beginStep s).hosts with
    | none => exact hnext (step_of_idle hreset hgrant) ▸ hbegun
    | some granted =>
      rw [step_of_grant hreset hgrant, onNext_eq_next] at hstep
      obtain ⟨u, hserve, rfl⟩ := hstep
      exact machineInv_of_sameStream (machineInv_serve hbegun hserve) (by rw [deliver_engine]; exact .refl _)
        (by rw [deliver_cipherLog])

end Sys2Proof.Machine
end

section
/-! PROOFS of the concurrent-access property (70_reset_and_hazards.md, section 5): hosts that share the engine take the
words of one stream in the order of the grants. -/

namespace Sys2Proof.Machine

open Sys2Proof.Safety

/-- Host `j` has `counts[j]` commands `NEXTBITS 32` to be served, and nothing else. -/
def Sharing (counts : List Nat) (hosts : List HostPort) : Prop :=
  hosts.map todo = counts.map (List.replicate · nextbits32)

/-- The counts add up to 0 exactly when every host is done. -/
theorem Sharing.sum_eq_zero_iff {counts : List Nat} {hosts : List HostPort} (h : Sharing counts hosts) :
    counts.sum = 0 ↔ ∀ q ∈ hosts, todo q = [] := by
  rw [← List.forall_mem_map (f := todo) (P := (· = [])), h, List.forall_mem_map, List.sum_eq_zero_iff]
  simp only [List.replicate_eq_nil_iff]

theorem Sharing.todo_eq {counts : List Nat} {hosts : List HostPort} (h : Sharing counts hosts) {j : Nat} {q : HostPort}
    (hq : hosts[j]? = some q) : ∃ n, counts[j]? = some n ∧ todo q = List.replicate n nextbits32 := by
  have hj := congrArg (·[j]?) h
  simp only [List.getElem?_map, hq, Option.map_some] at hj
  obtain ⟨n, hn, hreplicate⟩ := Option.map_eq_some_iff.mp hj.symm
  exact ⟨n, hn, hreplicate.symm⟩

/-- After an answer its host has one command less. -/
theorem Sharing.hostsAfter {counts : List Nat} {hosts : List HostPort} (h : Sharing counts hosts) (a : Response) :
    Sharing (counts.modify a.host Nat.pred) (hostsAfter a hosts) := by
  rw [Sharing, map_todo_hostsAfter, h]
  refine List.ext_getElem? fun j => ?_
  simp only [List.getElem?_map, List.getElem?_modify]
  cases counts[j]? with
  | none => simp
  | some n => by_cases hj : a.host = j <;> simp [hj]

/-- Taking one from a positive entry makes the sum one less. -/
theorem sum_modify_pred {counts : List Nat} {h m : Nat} (hm : counts[h]? = some (m + 1)) :
    (counts.modify h Nat.pred).sum + 1 = counts.sum := by
  induction counts generalizing h with
  | nil => simp at hm
  | cons n counts ih =>
    cases h with
    | zero =>
      obtain rfl : n = m + 1 := by simpa using hm
      simp only [List.modify_zero_cons, List.sum_cons, Nat.pred_succ]
      omega
    | succ h =>
      rw [List.modify_succ_cons, List.sum_cons, List.sum_cons, Nat.add_assoc, ih (by simpa using hm)]

/-- A host that is done has nothing outstanding and nothing to issue (R200). -/
theorem todo_eq_nil_iff (p : HostPort) : todo p = [] ↔ p.outstanding = none ∧ p.program = [] := by
  simp [todo]

/-- One step of the shared run: it takes word `p + 1` of the stream for the host it answers (R65, R132). -/
structure TakesWord (e₀ : Engine) (p : Nat) (s : State) (a : Response) (t : State) : Prop where
  step_eq : step s = .next t
  answered : t.response = some a
  pending : ∀ q, s.hosts[a.host]? = some q → todo q ≠ []
  status : a.status = .ok
  word : a.rdata = streamWord Config.cipher e₀ (p + 1)
  hosts : t.hosts = hostsAfter a s.hosts
  inputs : t.inputs = s.inputs.tail
  ready : t.engine.state = .ready
  last : LastWord e₀ t.engine (p + 1)

/-- In `READY` and with a cipher core that delivers, `NEXTBITS 32` takes the next word of the stream (R110, R132). -/
theorem serve_nextbits32 {e₀ : Engine} {p host : Nat} {env : Env} {s : State} (hready : s.engine.state = .ready)
    (hlast : LastWord e₀ s.engine p) (henc : env.encOk = true) :
    ∃ u, serve ⟨host, nextbits32.cmd, nextbits32.wdata⟩ env s = .next u ∧
      u.response = some ⟨host, .ok, streamWord Config.cipher e₀ (p + 1)⟩ ∧ u.engine.state = .ready ∧
      LastWord e₀ u.engine (p + 1) := by
  have hserve := serve_of_legal (r := ⟨host, nextbits32.cmd, nextbits32.wdata⟩) (decode_encode (.nextbits 32)) env s
  rw [exec_nextbits_delivers (s := s.present _ env) hready (by decide) fun _ => henc] at hserve
  refine ⟨_, hserve, ?_, (afterDelivery_state ..).trans hready, hlast.delivered (s := s.present _ _) 32⟩
  have hword : alignBits s.engine.nextWord 32 = s.engine.nextWord := BitVec.ushiftRight_zero _
  rw [← hlast.nextWord_eq, ← hword]
  rfl

/-- The host served had a command left. -/
theorem ServedStep.todo_ne_nil {s u : State} {c : Command} {a : Response} (h : ServedStep s c a u) (q : HostPort)
    (hq : s.hosts[a.host]? = some q) : todo q ≠ [] := by
  obtain ⟨p, hp, hhead⟩ := h.first
  rw [Option.some.inj (hq.symm.trans hp)]
  rintro hnil
  simp [hnil] at hhead

/-- What is served of hosts that share the engine is a `NEXTBITS 32`. -/
theorem ServedStep.of_sharing {s u : State} {c : Command} {a : Response} {counts : List Nat} (h : ServedStep s c a u)
    (hshare : Sharing counts s.hosts) : c = nextbits32 ∧ ∃ m, counts[a.host]? = some (m + 1) := by
  obtain ⟨q, hq, hhead⟩ := h.first
  obtain ⟨n, hn, htodo⟩ := hshare.todo_eq hq
  rw [htodo] at hhead
  cases n with
  | zero => simp at hhead
  | succ m => exact ⟨by simpa [List.replicate_succ, eq_comm] using hhead, m, hn⟩

/-- With a command left and no reset, a step of the hosts that share the engine takes the next word. -/
theorem sharing_step {e₀ : Engine} {p : Nat} {s : State} {counts : List Nat} (hready : s.engine.state = .ready)
    (hlast : LastWord e₀ s.engine p) (hshare : Sharing counts s.hosts) (hleft : counts.sum ≠ 0)
    (hreset : (nextInput s).hardReset = false) (henc : (nextInput s).env.encOk = true) :
    ∃ a t rest, TakesWord e₀ p s a t ∧ Sharing rest t.hosts ∧ rest.sum + 1 = counts.sum := by
  obtain ⟨c, a, u, hserved⟩ := step_serves hreset (by simpa using mt hshare.sum_eq_zero_iff.mpr hleft)
  obtain ⟨rfl, m, hm⟩ := hserved.of_sharing hshare
  obtain ⟨v, hv, hresp, hst, hend⟩ := serve_nextbits32 (host := a.host) (s := beginStep s) hready hlast henc
  obtain rfl := Host.Outcome.next.inj (hv.symm.trans hserved.served)
  have ha := Option.some.inj (hserved.answered.symm.trans hresp)
  obtain ⟨-, hinputs, -⟩ := serve_frame hv
  refine ⟨a, deliver v, counts.modify a.host Nat.pred, ?_, hserved.hosts_eq ▸ hshare.hostsAfter a, sum_modify_pred hm⟩
  exact {
    step_eq := hserved.step_eq
    answered := (deliver_response v).trans hserved.answered
    pending := hserved.todo_ne_nil
    status := congrArg Response.status ha
    word := congrArg Response.rdata ha
    hosts := hserved.hosts_eq
    inputs := (deliver_inputs v).trans hinputs
    ready := (congrArg Engine.state (deliver_engine v)).trans hst
    last := by rwa [deliver_engine] }

/-- A shared run: the steps take the words after word `p` in order, until no host has a command left. -/
inductive SharedRun (e₀ : Engine) : Nat → State → List Response → State → Prop
  | done {p s} (hlast : LastWord e₀ s.engine p) (htodo : ∀ q ∈ s.hosts, todo q = []) : SharedRun e₀ p s [] s
  | take {p s u t a answers} (h : TakesWord e₀ p s a u) (hrest : SharedRun e₀ (p + 1) u answers t) :
    SharedRun e₀ p s (a :: answers) t

/-- As many steps as there are commands make a shared run (R210). -/
theorem exists_sharedRun {e₀ : Engine} {n p : Nat} {s : State} {counts : List Nat} (hready : s.engine.state = .ready)
    (hlast : LastWord e₀ s.engine p) (hshare : Sharing counts s.hosts) (hsum : counts.sum = n)
    (hlen : n ≤ s.inputs.length) (hinputs : ∀ i ∈ s.inputs, i.hardReset = false ∧ i.env.encOk = true) :
    ∃ answers t, SharedRun e₀ p s answers t ∧ answers.length = n := by
  induction n generalizing p s counts with
  | zero => exact ⟨[], s, .done hlast (hshare.sum_eq_zero_iff.mp hsum), rfl⟩
  | succ n ih =>
    obtain ⟨i, inputs, hi⟩ := List.exists_cons_of_length_pos (Nat.zero_lt_of_lt hlen)
    have hnext : nextInput s = i := by rw [nextInput, hi]
    rw [hi] at hlen hinputs
    obtain ⟨⟨hreset, henc⟩, hrest⟩ := List.forall_mem_cons.mp hinputs
    obtain ⟨a, u, counts', htakes, hshare', hsum'⟩ :=
      sharing_step hready hlast hshare (by omega) (hnext ▸ hreset) (hnext ▸ henc)
    have hu : u.inputs = inputs := by rw [htakes.inputs, hi, List.tail_cons]
    obtain ⟨answers, t, hrun, hcount⟩ := ih htakes.ready htakes.last hshare' (by omega)
      (by rw [hu]; exact Nat.le_of_succ_le_succ hlen) (hu ▸ hrest)
    exact ⟨a :: answers, t, .take htakes hrun, congrArg (· + 1) hcount⟩

/-- A step of a run (R208). -/
theorem run_succ {s u : State} (h : step s = .next u) (n : Nat) :
    Sys2Proof.core.run (n + 1) s = Sys2Proof.core.run n u := by
  have hcore : Sys2Proof.core.step s = .next u := h
  simp only [Host.Core.run, hcore]

theorem SharedRun.run_eq {e₀ : Engine} {p : Nat} {s t : State} {answers : List Response}
    (h : SharedRun e₀ p s answers t) : Sys2Proof.core.run answers.length s = .next t := by
  induction h with
  | done => rfl
  | take h _ ih => exact (run_succ h.step_eq _).trans ih

/-- Step `j` leaves the `j`-th answer on the port (R210). -/
theorem SharedRun.answer_of_step {e₀ : Engine} {p : Nat} {s t : State} {answers : List Response}
    (h : SharedRun e₀ p s answers t) (j : Nat) (hj : j < answers.length) :
    ∃ u, Sys2Proof.core.run (j + 1) s = .next u ∧ u.response = answers[j]? := by
  induction h generalizing j with
  | done => cases hj
  | take h _ ih =>
    cases j with
    | zero => exact ⟨_, run_succ h.step_eq 0, h.answered⟩
    | succ j =>
      obtain ⟨u, hu, hanswer⟩ := ih j (Nat.lt_of_succ_lt_succ hj)
      exact ⟨u, (run_succ h.step_eq _).trans hu, hanswer⟩

/-- The `j`-th answer is the `j`-th word after the position of the start (R210). -/
theorem SharedRun.word_of_answer {e₀ : Engine} {p : Nat} {s t : State} {answers : List Response}
    (h : SharedRun e₀ p s answers t) (j : Nat) (b : Response) (hb : answers[j]? = some b) :
    b.status = .ok ∧ b.rdata = streamWord Config.cipher e₀ (p + 1 + j) := by
  induction h generalizing j with
  | done => cases hb
  | @take p _ _ _ _ _ h _ ih =>
    cases j with
    | zero => cases hb; exact ⟨h.status, h.word⟩
    | succ j =>
      rw [show p + 1 + (j + 1) = p + 1 + 1 + j by omega]
      exact ih j hb

/-- The position moves by one word for each answer (R210). -/
theorem SharedRun.lastWord {e₀ : Engine} {p : Nat} {s t : State} {answers : List Response}
    (h : SharedRun e₀ p s answers t) : LastWord e₀ t.engine (p + answers.length) := by
  induction h with
  | done hlast => exact hlast
  | take _ _ ih => rwa [List.length_cons, Nat.add_comm _ 1, ← Nat.add_assoc]

/-- Every host receives its own answers in order, one for each command it had to be served (R65, R210). -/
theorem SharedRun.received {e₀ : Engine} {p : Nat} {s t : State} {answers : List Response}
    (h : SharedRun e₀ p s answers t) (j : Nat) (q : HostPort) (hq : s.hosts[j]? = some q) :
    ∃ q', t.hosts[j]? = some q' ∧ todo q' = [] ∧
      q'.received = q.received ++ answers.filter (fun a => decide (a.host = j)) ∧
      q'.received.length = q.received.length + (todo q).length := by
  induction h generalizing q with
  | done _ htodo =>
    have hnil := htodo q (List.mem_of_getElem? hq)
    exact ⟨q, hq, hnil, by simp, by simp [hnil]⟩
  | @take _ s u _ a _ h _ ih =>
    obtain ⟨q', hq', hnil, hreceived, hlength⟩ := ih _ ((congrArg (·[j]?) h.hosts).trans (getElem?_hostsAfter hq a))
    by_cases hj : a.host = j
    · have hpos := List.length_pos_iff.mpr (h.pending q (hj ▸ hq))
      rw [if_pos hj, received_receive_issue] at hreceived hlength
      rw [todo_receive_issue, List.length_append, List.length_singleton, List.length_tail] at hlength
      refine ⟨q', hq', hnil, ?_, by omega⟩
      rw [hreceived, List.filter_cons_of_pos (by simpa using hj), List.append_assoc, List.singleton_append]
    · rw [if_neg hj, issue_received] at hreceived hlength
      rw [issue_todo] at hlength
      rw [List.filter_cons_of_neg (by simpa using hj)]
      exact ⟨q', hq', hnil, hreceived, hlength⟩

/-- Settles O25: the hosts make a shared run from the last word consumed, and each clause is a lemma on that run. -/
theorem sharedStreamHasNoGapsOrRepeats : Obligations.SharedStreamHasNoGapsOrRepeats := by
  intro s k n hinv hready hn hhosts hlen hinputs
  have htodo : ∀ q ∈ s.hosts, todo q = List.replicate k nextbits32 := by
    intro q hq
    obtain ⟨hout, hprogram⟩ := hhosts q hq
    rw [todo, hout, hprogram]
    rfl
  have hshare : Sharing (List.replicate s.hosts.length k) s.hosts := by
    rw [Sharing, List.map_replicate, ← List.map_const']
    exact List.map_congr_left htodo
  obtain ⟨answers, t, hrun, hcount⟩ := exists_sharedRun hready (lastWord_of_engineInv hinv.left hready) hshare
    (by rw [List.sum_replicate, smul_eq_mul, hn]) hlen hinputs
  obtain ⟨hpos, -⟩ := consumedWords_range hinv.left
  have hstart := Nat.sub_add_cancel hpos
  refine ⟨answers, t, hcount ▸ hrun.run_eq, hcount, fun j hj => hrun.answer_of_step j (hcount ▸ hj), fun j a ha => ?_,
    fun h q hq => ?_, ?_⟩
  · rw [← hstart]; exact hrun.word_of_answer j a ha
  · obtain ⟨q', hq', hnil, hreceived, hlength⟩ := hrun.received h q hq
    rw [htodo q (List.mem_of_getElem? hq), List.length_replicate] at hlength
    exact ⟨q', hq', hreceived, hlength, (todo_eq_nil_iff q').mp hnil⟩
  · rw [hrun.lastWord.counter, hcount, Nat.sub_add_comm hpos]

end Sys2Proof.Machine
end

section
/-! PROOFS of what is left of the encoding (30_encoding.md): the rows of the opcode map and the lines of a listing. -/

namespace Sys2Proof

/-- Settles O4: the decoder is evaluated on each word. -/
theorem writtenOutWordsDecode : Obligations.WrittenOutWordsDecode := by
  unfold Obligations.WrittenOutWordsDecode
  decide

/-- The encoding of every command is a word of its own row (R75). -/
theorem encode_in_own_row (i : Instr) : Laws.OpcodeRow.Statement i := by
  cases i with
  | rst => exact Laws.OpcodeRow.rst
  | seedw k => exact Laws.OpcodeRow.seedw k
  | init n => exact Laws.OpcodeRow.init n
  | nextbits w => exact Laws.OpcodeRow.nextbits w
  | seedr k => exact Laws.OpcodeRow.seedr k
  | stat => exact Laws.OpcodeRow.stat
  | ctrr k => exact Laws.OpcodeRow.ctrr k
  | bufr k => exact Laws.OpcodeRow.bufr k

/-- A word is spelled by one row at most: its opcode says which (R75). -/
theorem row_eq_of_spells {a b : OpcodeRow} (ha : a ∈ opcodeMap) (hb : b ∈ opcodeMap) {c : Word}
    (hac : a.spells c = true) (hbc : b.spells c = true) : a = b := by
  have hranges : ∀ f ∈ opcodeFormats, f.op < 16 ∧ f.operandBits ≤ 28 := by decide
  have hopcodes : ∀ f ∈ opcodeFormats, ∀ g ∈ opcodeFormats, f.op = g.op → f.row = g.row := by decide
  rw [opcodeMap_eq_map_row, List.mem_map] at ha hb
  obtain ⟨f, hf, rfl⟩ := ha
  obtain ⟨g, hg, rfl⟩ := hb
  obtain ⟨hfop, -⟩ := (OpcodeFormat.row_spells_iff (hranges f hf).left (hranges f hf).right c).mp hac
  obtain ⟨hgop, -⟩ := (OpcodeFormat.row_spells_iff (hranges g hg).left (hranges g hg).right c).mp hbc
  exact hopcodes f hf g hg (hfop.symm.trans hgop)

theorem opcodeMap_disjoint : opcodeMap.Pairwise fun a b => ∀ c : Word, ¬(a.spells c = true ∧ b.spells c = true) := by
  have hnodup : opcodeMap.Nodup := by decide
  exact hnodup.pairwise_of_forall_ne fun a ha b hb hne c ⟨hac, hbc⟩ => hne (row_eq_of_spells ha hb hac hbc)

theorem row_eq_of_mnemonic : ∀ a ∈ opcodeMap, ∀ b ∈ opcodeMap, a.mnemonic = b.mnemonic → a = b := by decide

/-- Settles O2: a word decoded to a command is in the command's own row; no other row spells it, or has its mnemonic. -/
theorem opcodeMapSelectsTheCommand : Obligations.OpcodeMapSelectsTheCommand := by
  refine ⟨fun c row hrow => ⟨fun hspells => ?_, fun ⟨i, hdec, hmnemonic⟩ => ?_⟩, opcodeMap_disjoint⟩
  · cases hdec : decode c with
    | illegal why =>
      have hnone := (instr?_decode_eq_none_iff_forall_row c).mp (by rw [hdec]; rfl) row hrow
      simp [hnone] at hspells
    | legal i =>
      obtain ⟨own, hown, hmnemonic, hspells'⟩ := encode_in_own_row i
      rw [encode_of_decode hdec] at hspells'
      exact ⟨i, rfl, by rw [row_eq_of_spells hrow hown hspells hspells', hmnemonic]⟩
  · obtain ⟨own, hown, hmnemonic', hspells⟩ := encode_in_own_row i
    rwa [encode_of_decode hdec, row_eq_of_mnemonic own hown row hrow (hmnemonic'.trans hmnemonic)] at hspells

/-- The command word from its number (R82). -/
theorem encode_eq_ofNat (i : Instr) : encode i = BitVec.ofNat 32 (i.opcode * 2 ^ 28 + i.operand) := by
  rw [← encode_toNat, BitVec.ofNat_toNat, BitVec.setWidth_eq]

/-- The line that spells a command assembles to its word alone (R80). -/
theorem assemble_toAsm (i : Instr) (d : Word) : ∃ e, assemble (i.toAsm d) = some [⟨encode i, e⟩] := by
  cases i with
  | rst | stat => exact ⟨0, rfl⟩
  | seedw k => exact ⟨d, by simp [assemble, Instr.toAsm, AsmLine.wellFormed, k.isLt]⟩
  | seedr k | init k | nextbits k | ctrr k | bufr k =>
    exact ⟨0, by simp [assemble, Instr.toAsm, AsmLine.wellFormed, k.isLt]⟩

/-- Settles O6: an operand in range is the value of its field, so the word is the opcode and that operand. -/
theorem assemblerKeepsOperandRanges : Obligations.AssemblerKeepsOperandRanges := by
  refine ⟨fun k d => ?_, fun n => ?_, fun w => ?_, fun k => ?_, fun k => ?_, fun k => ?_, ⟨rfl, rfl⟩, fun c => rfl,
    fun i d => ?_⟩
  case refine_7 =>
    obtain ⟨e, he⟩ := assemble_toAsm i d
    exact ⟨_, he, decode_encode i⟩
  all_goals
    simp only [assemble, AsmLine.wellFormed, decide_eq_true_eq, encode_eq_ofNat, Instr.opcode, Instr.operand,
      BitVec.toNat_ofNat]
    split_ifs with h
    · rw [Nat.mod_eq_of_lt h]; rfl
    · rfl

end Sys2Proof
end

section
/-! PROOFS of what is left of the commands one by one (20_memory.md, 40_lifecycle.md, 41_generation.md): `bytes16`, and
the full next state of `NEXTBITS`, `SEEDW` and `INIT`. -/

namespace Sys2Proof.Machine

open Sys2Proof.Safety

/-- The first `n` bytes of a number, read back (R9, R132). -/
theorem littleEndian_ofFn (n m : Nat) :
    littleEndian (List.ofFn fun i : Fin n => BitVec.ofNat 8 (m / 256 ^ i.val)) = m % 256 ^ n := by
  induction n generalizing m with
  | zero => simp [littleEndian, Nat.mod_one]
  | succ n ih =>
    have hshift (i : Fin n) : m / 256 ^ i.succ.val = m / 256 / 256 ^ i.val := by
      rw [Fin.val_succ, Nat.pow_succ', Nat.div_div_eq_div_mul]
    simp only [List.ofFn_succ, littleEndian, hshift, ih, Nat.pow_succ', Nat.mod_mul]
    simp

/-- `LE128` reads back what `bytes16` wrote, up to 16 bytes (R132). -/
theorem le128_bytes16 (m : Nat) : le128 (bytes16 m) = m % 2 ^ 128 := by
  rw [le128, bytes16, Vector.toList_ofFn]
  exact littleEndian_ofFn 16 m

/-- Settles O9: the two directions, and the two values that fix the byte order. -/
theorem bytes16InvertsLe128 : Obligations.Bytes16InvertsLe128 :=
  ⟨le128_bytes16, bytes16_le128, by decide, by decide⟩

/-- The bits `NEXTBITS` returns from four bytes, as a number (R115, R116). -/
theorem alignBits_be32_toNat (b0 b1 b2 b3 : Byte) (w : Nat) : (alignBits (be32 b0 b1 b2 b3) w).toNat =
    (b0.toNat * 2 ^ 24 + b1.toNat * 2 ^ 16 + b2.toNat * 2 ^ 8 + b3.toNat) / 2 ^ (32 - w) := by
  rw [alignBits_toNat, be32_toNat]

/-- Settles O12: with 4 bytes left nothing but the cursor moves. -/
theorem nextbitsDeliversFromTheBuffer : Obligations.NextbitsDeliversFromTheBuffer := by
  intro w s hcur hready hw hpop
  have hfull : ¬(s.engine.pop = false ∨ 13 ≤ s.engine.cur.toNat) := not_or.mpr ⟨by simp [hpop], by omega⟩
  exact ⟨_, alignBits_be32_toNat .., by bv_omega,
    (exec_nextbits_buffered hready hw hfull).trans (deliverBits_inside _ s (by omega))⟩

/-- Settles O13: a refresh that succeeds, with the counter as an integer. -/
theorem nextbitsRefreshesThenDelivers : Obligations.NextbitsRefreshesThenDelivers :=
  fun w s hready hw hneed henc => ⟨_, _, _, le128_incrementCounter _, rfl, alignBits_be32_toNat ..,
    (exec_nextbits_refresh hready hw hneed).trans (refreshAndDeliver_ok Config.cipher w.toNat s henc)⟩

/-- Writing word `k` sets its valid bit and no other (R91). -/
theorem setValid_getLsbD (sval : BitVec 8) (k : BitVec 3) (j : Nat) :
    (setValid sval k).getLsbD j = (sval.getLsbD j || decide (j = k.toNat)) := by
  have hk : k.toNat < 8 := k.isLt
  rw [setValid, ← BitVec.twoPow_eq, BitVec.getLsbD_or, BitVec.getLsbD_twoPow]
  simp [hk, eq_comm]

/-- Settles O27: the bytes of the word written and its valid bit; everything else of the next state is as it was. -/
theorem seedwWritesTheStagingAreaOnly : Obligations.SeedwWritesTheStagingAreaOnly :=
  fun k _ => ⟨_, rfl, fun i => setSeedWord_get _ k _ i.val i.isLt, fun j _ => setValid_getLsbD _ k j, rfl⟩

/-- Settles O28: a validated `INIT` that the cipher core accepts. -/
theorem initConstructsTheInstance : Obligations.InitConstructsTheInstance :=
  fun n s hst hlen hstaged hk => ⟨captureBytes s.engine.seedin n.toNat,
    fun i => captureBytes_get _ n.toNat i.val i.isLt, exec_init_accepted hst ⟨hlen, hstaged⟩ hk⟩

end Sys2Proof.Machine
end
